-- ==== Sys2Proof/Word.lean ====
section
/-! DEFINITION. The word types of the stegan LSB codec block and its colour channels. -/

namespace Sys2Proof

/-- A byte: a message byte, or one colour channel value, `CHANNEL_BITS` = 8 (00_scope.md R5). -/
abbrev Byte := BitVec 8

/-- A host-visible register or a command word, `REG_BITS` = 32 (00_scope.md R5, 30_encoding.md R80). -/
abbrev Word := BitVec 32

/-- An image dimension as WIDTH and HEIGHT hold it, `DIM_BITS` = 16 (00_scope.md R5). -/
abbrev Dim := BitVec 16

/-- The channels of a pixel, in the order of their numbers 0 to 3 (10_state.md R35). -/
inductive Channel where
  | red
  | green
  | blue
  | alpha
  deriving DecidableEq, Repr

end Sys2Proof
end

