-- ==== Sys2Proof/Syntax.lean ====
section
/-! DEFINITION. The commands of the block, one constructor per row of spec/opcode_table.json (30_encoding.md R82). -/

namespace Sys2Proof

/-- A legal command.  Format N commands name no operand (R83); SUB carries its value and its bit (R84). -/
inductive Instr where
  /-- ENCODE, 40_bit_codec.md R120. -/
  | encode
  /-- DECODE, 40_bit_codec.md R121. -/
  | decode
  /-- SUB v, b, 41_pixel_mapper.md R140. -/
  | sub (v : Byte) (b : Bool)
  /-- EMBED, 41_pixel_mapper.md R141. -/
  | embed
  /-- EXTRACT, 41_pixel_mapper.md R142. -/
  | extract
  /-- ENCRYPT, 42_pipeline.md R161. -/
  | encrypt
  /-- DECRYPT, 42_pipeline.md R162. -/
  | decrypt
  deriving DecidableEq, Repr

end Sys2Proof
end

