-- ==== Sys2Proof/WellFormed.lean ====
section
/-! DEFINITION. The written form of a command and the range check an assembler makes (30_encoding.md R87).
An `Instr` cannot be ill-formed: its types hold exactly the ranges of R84 (`v` 8 bits, `b` one bit).  So the check stands
one level up, on a command as it is written, whose operands are plain numbers. -/

namespace Sys2Proof

/-- A command line of the assembler syntax, operands not yet checked (R87). -/
inductive AsmLine where
  | encode
  | decode
  | sub (v b : Nat)
  | embed
  | extract
  | encrypt
  | decrypt
  deriving DecidableEq, Repr

/-- R87: `SUB <v>, <b>` takes `v` in 0..255 and `b` in {0, 1}; no other command takes an operand. -/
def AsmLine.wf : AsmLine → Bool
  | .encode => true
  | .decode => true
  | .sub v b => decide (v ≤ 255) && decide (b ≤ 1)
  | .embed => true
  | .extract => true
  | .encrypt => true
  | .decrypt => true

/-- The command a written line stands for.  An operand out of range is an assembly error, not a word (R87). -/
def AsmLine.instr? (l : AsmLine) : Option Instr :=
  if l.wf then
    match l with
    | .encode => some .encode
    | .decode => some .decode
    | .sub v b => some (.sub (BitVec.ofNat 8 v) (b == 1))
    | .embed => some .embed
    | .extract => some .extract
    | .encrypt => some .encrypt
    | .decrypt => some .decrypt
  else none

end Sys2Proof
end

