-- ==== Sys2Proof/Decode.lean ====
section
/-! DEFINITION. The command word: `decode_cmd`, total on all 2^32 words (30_encoding.md R85), and after it the
assembler's encoder (R81, R87). -/

namespace Sys2Proof

/-- Why a word is `Illegal` (R85).  The block reports both reasons as one code, IllegalCommand (60_exceptions.md R183). -/
inductive Illegal where
  /-- OPC is 0x0 or 0x8 to 0xF. -/
  | reservedOpcode
  /-- A legal OPC with a non-zero reserved bit. -/
  | reservedBits
  deriving DecidableEq, Repr

/-- Field OPC, w[3:0] (R80). -/
def opcOf (w : Word) : BitVec 4 := w.extractLsb' 0 4

/-- Field VAL, w[11:4] (R80, R84). -/
def valOf (w : Word) : Byte := w.extractLsb' 4 8

/-- Field BIT, w[12] (R80, R84). -/
def bitOf (w : Word) : Bool := w.getLsbD 12

/-- The format-N command of an opcode (R82); SUB and the reserved opcodes have none. -/
def formatN (opc : BitVec 4) : Option Instr :=
  match opc.toNat with
  | 0x1 => some .encode
  | 0x2 => some .decode
  | 0x4 => some .embed
  | 0x5 => some .extract
  | 0x6 => some .encrypt
  | 0x7 => some .decrypt
  | _ => none

/-- `decode_cmd` (R85). -/
def decode (w : Word) : Except Illegal Instr :=
  if opcOf w = 0x3#4 then
    if w.extractLsb' 13 19 = 0#19 then .ok (.sub (valOf w) (bitOf w)) else .error .reservedBits
  else
    match formatN (opcOf w) with
    | some i => if w.extractLsb' 4 28 = 0#28 then .ok i else .error .reservedBits
    | none => .error .reservedOpcode

/-- The word of a command: `w = OPC` in format N, `w = (b << 12) | (v << 4) | 0x3` for SUB (R81, R87). -/
def encode : Instr → Word
  | .encode => 0x1#32
  | .decode => 0x2#32
  | .sub v b => ((BitVec.ofBool b).setWidth 32 <<< 12) ||| (v.setWidth 32 <<< 4) ||| 0x3#32
  | .embed => 0x4#32
  | .extract => 0x5#32
  | .encrypt => 0x6#32
  | .decrypt => 0x7#32

/-- Assembling a written line gives a word, or an assembly error (R87). -/
def assemble (l : AsmLine) : Option Word := l.instr?.map encode

/-- The command word that the low `nbits` bits of `w` make; the bits above are 0. -/
def tableWord (nbits w : Nat) : Word := BitVec.ofNat 32 (w % 2 ^ nbits)

/-- The command the decoder reads from an opcode-table word.  A command is one 32-bit word and register accesses are
whole, so the table's numbering is the word's own (R52, R80).  No command is longer than 32 bits. -/
def decodeTableWord (nbits w : Nat) : Option Instr :=
  if nbits ≤ 32 then
    match decode (tableWord nbits w) with
    | .ok i => some i
    | .error _ => none
  else none

end Sys2Proof
end

