-- ==== Sys2Proof/Config.lean ====
section
/-! DEFINITION. What the implementation or the platform fixes (00_scope.md R5, 20_memory.md R51), and the free values:
each open point is an opaque constant without a body, so a claim holds whatever it is. -/

namespace Sys2Proof.Config

/-- `PREFIX_BITS`: the width of the length prefix (R5). -/
abbrev prefixBits : Nat := 16

/-- `CARRIER_CHANNEL`: the channel whose least significant bit carries the bits (R5: 2, blue). -/
abbrev carrierChannel : Channel := .blue

/-- `MAX_MSG_BITS`: the largest accepted message bit length (R5). -/
abbrev maxMsgBits : Nat := 65535

/-- `MSG_CAP`: the bytes of the message buffer (R5, 10_state.md R27). -/
abbrev msgCap : Nat := 8191

/-- The implementation's choice of the size of BITBUF (assumption 1).  OPEN in R5. -/
opaque bitCapChoice : Nat

/-- The bytes of the bit-buffer window, `BIT_CAP / 8`.  The choice is folded onto 8193 … 2^28, so that every value
R5 allows for `BIT_CAP`, and no other, is possible. -/
def bitCapBytes : Nat := bitCapChoice % 268427264 + 8193

/-- `BIT_CAP`: the bits of BITBUF, a multiple of 8 with 65544 ≤ `BIT_CAP` ≤ 2^31 (R5, 10_state.md R29). -/
def bitCap : Nat := 8 * bitCapBytes

/-- `HAS_ALPHA`: whether pixels carry a fourth channel.  OPEN in R5 (assumption 2). -/
opaque hasAlpha : Bool

/-- `BLOCK_BASE`: the block's base address in the host's physical address space (20_memory.md R51, assumption 3). -/
opaque blockBase : Nat

/-- FREE VALUE (assumption 4).  What the host reads from MSG byte `k` while it is unwritten, after the `n`-th reset
(10_state.md R38, 93_implementation_defined.md U11). -/
opaque unwrittenMsgByte : (n k : Nat) → Byte

/-- FREE VALUE (assumption 4).  What the host reads from BITBUF position `i` while it is unwritten, after the `n`-th
reset (20_memory.md R62, 93_implementation_defined.md U11). -/
opaque unwrittenBit : (n i : Nat) → Bool

end Sys2Proof.Config
end

