-- ==== Sys2Proof/Machine/State.lean ====
section
/-! DEFINITION. The state of the block, of its pixel memory and of the host agent that drives it, as plain data, and the
state after reset (10_state.md R20 to R39).  INVENTORY.md lists every field with its rule. -/

namespace Sys2Proof.Machine

/-- STATUS.CODE (60_exceptions.md R180).  Codes 8 to 15 are reserved and never written, so they have no name. -/
inductive StatusCode where
  | ok
  /-- Host level only; the block never writes it (R187). -/
  | noMessageProvided
  | messageTooLong
  | imageTooSmall
  | malformedData
  /-- Host level only; the block never writes it (R187). -/
  | ioFailure
  | illegalCommand
  | capacityExceeded
  deriving DecidableEq, Repr

/-- A memory as its written locations, with rising keys.  An unlisted location is unwritten: it has no value (R38). -/
abbrev Memory (α : Type) := List (Nat × α)

/-- The one canonical form of a memory: keys strictly rising. -/
abbrev Memory.wf {α : Type} (m : Memory α) : Prop := m.Pairwise fun a b => a.1 < b.1

/-- Pixel memory: the image the host loaded (R35).  `width` and `height` are `W_img` and `H_img`; `cells` holds the
loaded channel values, by the key `pixKey` of Machine/Ops.lean.  The host owns it. -/
structure PixelMemory where
  width : Dim
  height : Dim
  cells : Memory Byte
  deriving DecidableEq, Repr

/-- One access of the block to the pixel port, with the value it moved (20_memory.md R55). -/
inductive PortAccess where
  | read (x y : Nat) (c : Channel) (v : Byte)
  | write (x y : Nat) (c : Channel) (v : Byte)
  deriving DecidableEq, Repr

/-- What the host does next.  A `write` or `read` is a host access at a 32-bit offset of so many bytes (20_memory.md R50
to R54); a write of CMD is how a command starts (R24).  `reset` asserts the reset input (70_reset_and_hazards.md R210).
`newImage` and `loadPixel` are the host's own means of loading pixel memory (R220 step 2, assumption 6). -/
inductive HostEvent where
  | write (offset : Word) (bytes : Nat) (data : Word)
  | read (offset : Word) (bytes : Nat)
  | reset
  | newImage (width height : Dim)
  | loadPixel (x y : Dim) (c : Channel) (v : Byte)
  deriving DecidableEq, Repr

/-- The whole system of R20: the block, the pixel memory and the host agent. -/
structure State where
  /-- STATUS.CODE (R25). -/
  status : StatusCode
  /-- MSG_LEN (R26). -/
  msgLen : Word
  /-- BIT_LEN (R28). -/
  bitLen : Word
  /-- WIDTH[15:0] (R30). -/
  width : Dim
  /-- HEIGHT[15:0] (R31). -/
  height : Dim
  /-- SUB_RESULT[7:0] (R32). -/
  subResult : Byte
  /-- MSG, the message buffer (R27), its written bytes. -/
  msg : List Host.Cell
  /-- BITBUF, the bit-sequence buffer (R29), its written bits. -/
  bits : Memory Bool
  /-- Pixel memory (R35). -/
  image : PixelMemory
  /-- The host agent: what it will still do, in its order (R66, assumption 5). -/
  script : List HostEvent
  /-- The host agent: the data its reads returned, oldest first (assumption 5). -/
  replies : List Word
  /-- What an observer of the pixel port has seen, oldest first (41_pixel_mapper.md R143, R144, assumption 7). -/
  portLog : List PortAccess
  /-- The model's own counter behind the free values of unwritten locations (assumption 4). -/
  resets : Nat
  deriving DecidableEq, Repr

/-- Why the model stops in a faulted state. -/
inductive Fault where
  /-- A command read an unwritten MSG byte or BITBUF bit, or a pixel the host did not load: `UnwrittenRead`
  (10_state.md R38, 60_exceptions.md R200).  Raised by ENCODE, DECODE, EMBED, EXTRACT, ENCRYPT and DECRYPT.  Safe: the
  hardware would go on with an unspecified value. -/
  | unwrittenRead
  deriving DecidableEq, Repr

/-- Why the model has no step. -/
inductive Refusal where
  /-- A command without a meaning yet; raised by `exec` alone.  Safe.  No arm of this model raises it. -/
  | notModelled (mnemonic : String)
  /-- A host access of an unsupported width or alignment (20_memory.md R53, R54, 60_exceptions.md R200); raised by the
  host port.  Safe: the hardware's response is unspecified. -/
  | unsupportedAccess
  /-- The host loads a pixel outside the image, or a channel pixels do not have (10_state.md R35, assumption 6); raised
  by `loadPixel`.  Safe: there is no such location. -/
  | noSuchPixel
  deriving DecidableEq, Repr

/-- The state right after reset (10_state.md R39, 70_reset_and_hazards.md R211): every register 0, STATUS OK, every MSG
byte and BITBUF bit unwritten.  No image is loaded and the host has nothing left to do. -/
def State.reset : State where
  status := .ok
  msgLen := 0#32
  bitLen := 0#32
  width := 0#16
  height := 0#16
  subResult := 0#8
  msg := []
  bits := []
  image := { width := 0#16, height := 0#16, cells := [] }
  script := []
  replies := []
  portLog := []
  resets := 0

end Sys2Proof.Machine
end

