-- ==== Sys2Proof/Machine/Ops.lean ====
section
/-! DEFINITION. The named operations over memories, pixel memory and state: the primitives of 00_scope.md R9, and how a
command ends (R10). -/

namespace Sys2Proof.Machine

/-- What every meaning answers. -/
abbrev Result := Host.Outcome State Fault Refusal

/-! ### Memories of written locations (10_state.md R38) -/

/-- The value of a location, none while it is unwritten. -/
def Memory.read {α : Type} : Memory α → Nat → Option α
  | [], _ => none
  | (j, u) :: m, k => if j = k then some u else Memory.read m k

/-- Writing a location gives it the value and makes it written; keys stay rising. -/
def Memory.write {α : Type} : Memory α → Nat → α → Memory α
  | [], k, v => [(k, v)]
  | (j, u) :: m, k, v =>
    if k < j then (k, v) :: (j, u) :: m
    else if k = j then (k, v) :: m
    else (j, u) :: Memory.write m k v

/-- The `n` values from location `k` on, none when one of them is unwritten. -/
def Memory.readRange {α : Type} (m : Memory α) (k : Nat) : Nat → Option (List α)
  | 0 => some []
  | n + 1 =>
    match Memory.read m k, Memory.readRange m (k + 1) n with
    | some v, some l => some (v :: l)
    | _, _ => none

/-- Write a list of values from location `k` on. -/
def Memory.writeFrom {α : Type} (m : Memory α) (k : Nat) : List α → Memory α
  | [] => m
  | v :: l => Memory.writeFrom (Memory.write m k v) (k + 1) l

/-! ### Pixel memory and the pixel port (10_state.md R35, 20_memory.md R55) -/

/-- The number of a channel (R35). -/
def channelNumber : Channel → Nat
  | .red => 0
  | .green => 1
  | .blue => 2
  | .alpha => 3

/-- Whether pixels have the channel: alpha only when `HAS_ALPHA` (R35). -/
def channelPresent : Channel → Bool
  | .red => true
  | .green => true
  | .blue => true
  | .alpha => Config.hasAlpha

/-- The model's key of channel `c` of pixel `(x, y)`; one key per triple for 16-bit `y` (R50, assumption 8). -/
def pixKey (x y : Nat) (c : Channel) : Nat := (x * 65536 + y) * 4 + channelNumber c

/-- Whether the image has the location: inside `W_img × H_img`, of a channel pixels have (R35). -/
def PixelMemory.inGrid (p : PixelMemory) (x y : Nat) (c : Channel) : Bool :=
  decide (x < p.width.toNat) && decide (y < p.height.toNat) && channelPresent c

/-- `PixRead(x, y, c)`: none for a pixel the host has not loaded (20_memory.md R55, 10_state.md R38). -/
def pixRead (p : PixelMemory) (x y : Nat) (c : Channel) : Option Byte :=
  if p.inGrid x y c then Memory.read p.cells (pixKey x y c) else none

/-- `PixWrite(x, y, c, v)`: sets that value and changes no other location (20_memory.md R55). -/
def pixWrite (p : PixelMemory) (x y : Nat) (c : Channel) (v : Byte) : PixelMemory :=
  { p with cells := Memory.write p.cells (pixKey x y c) v }

/-- Let the staged writes of a list of port accesses take effect, in their order (00_scope.md R9, R10). -/
def commitPort (p : PixelMemory) : List PortAccess → PixelMemory
  | [] => p
  | .read _ _ _ _ :: l => commitPort p l
  | .write x y c v :: l => commitPort (pixWrite p x y c v) l

/-! ### Named updates of the state -/

/-- `reg(STATUS) <- c`. -/
def State.setStatus (c : StatusCode) (s : State) : State := { s with status := c }

/-- `MsgWrite(k, m[k])` for every `k`, and `reg(MSG_LEN) <- len(m)`. -/
def State.setMessage (m : List Byte) (s : State) : State :=
  { s with msg := Memory.writeFrom s.msg 0 m, msgLen := BitVec.ofNat 32 m.length }

/-- `BitWrite(i, b[i])` for every `i`, and `reg(BIT_LEN) <- len(b)`. -/
def State.setBitSequence (b : List Bool) (s : State) : State :=
  { s with bits := Memory.writeFrom s.bits 0 b, bitLen := BitVec.ofNat 32 b.length }

/-- `reg(SUB_RESULT) <- zext_32(v)`. -/
def State.setSubResult (v : Byte) (s : State) : State := { s with subResult := v }

/-- The staged pixel writes of the port accesses take effect. -/
def State.commitPixels (l : List PortAccess) (s : State) : State := { s with image := commitPort s.image l }

/-- The observer of the pixel port sees the accesses (41_pixel_mapper.md R143, R144). -/
def State.logPort (l : List PortAccess) (s : State) : State := { s with portLog := s.portLog ++ l }

/-- A host read returns its data to the host. -/
def State.reply (v : Word) (s : State) : State := { s with replies := s.replies ++ [v] }

/-- What the host will still do. -/
def State.setScript (l : List HostEvent) (s : State) : State := { s with script := l }

/-! ### How a command ends (00_scope.md R9, R10) -/

/-- `raise c()`: the command ends as a failure.  STATUS.CODE takes the code and nothing else changes; there is no saved
state, no handler and no return (60_exceptions.md R181, R188, R191, R192).  The block's one way of reporting an error. -/
def raise (c : StatusCode) (s : State) : Result := .next (s.setStatus c)

/-- `commit`: the command ends as a success, on the state that holds its staged writes (R10). -/
def commit (s : State) : Result := .next (s.setStatus .ok)

/-- A read of an unwritten location is the model fault `UnwrittenRead` (10_state.md R38, 60_exceptions.md R200). -/
def orFault {α : Type} (o : Option α) (k : α → Result) : Result :=
  match o with
  | none => .fault .unwrittenRead
  | some a => k a

/-- `Err(c)` of a pure function ends the command as `raise c()`. -/
def orRaise {α : Type} (r : Except StatusCode α) (s : State) (k : α → Result) : Result :=
  match r with
  | .error c => raise c s
  | .ok a => k a

/-! ### Reset and the host's loading of pixel memory -/

/-- Asserting the reset input puts every piece of block state into its reset value (70_reset_and_hazards.md R210,
10_state.md R39).  Pixel memory, the host agent and the port observer are not the block's and stay. -/
def resetBlock (s : State) : State :=
  { State.reset with
    image := s.image, script := s.script, replies := s.replies, portLog := s.portLog, resets := s.resets + 1 }

/-- The host brings a new image of the given dimensions, no pixel of it loaded yet (assumption 6). -/
def newImage (w h : Dim) (s : State) : State := { s with image := { width := w, height := h, cells := [] } }

/-- The host loads one channel value of the image, none where there is no such location (assumption 6). -/
def loadPixel? (x y : Dim) (c : Channel) (v : Byte) (s : State) : Option State :=
  if s.image.inGrid x.toNat y.toNat c then some { s with image := pixWrite s.image x.toNat y.toNat c v } else none

end Sys2Proof.Machine
end

