-- ==== Sys2Proof/Machine/Flags.lean ====
section
/-! DEFINITION. STATUS.CODE, the block's only condition indicator (10_state.md R25, R36), and the tests behind its error
codes (60_exceptions.md R182 to R186). -/

namespace Sys2Proof.Machine

/-- The number of a status code (R180). -/
def statusNumber : StatusCode → BitVec 4
  | .ok => 0#4
  | .noMessageProvided => 1#4
  | .messageTooLong => 2#4
  | .imageTooSmall => 3#4
  | .malformedData => 4#4
  | .ioFailure => 5#4
  | .illegalCommand => 6#4
  | .capacityExceeded => 7#4

/-- Whether the block itself can write the code: not the two host-level ones (R187). -/
def blockWrites : StatusCode → Bool
  | .ok => true
  | .noMessageProvided => false
  | .messageTooLong => true
  | .imageTooSmall => true
  | .malformedData => true
  | .ioFailure => false
  | .illegalCommand => true
  | .capacityExceeded => true

/-- MessageTooLong: `8 * n ≥ 65536`, the product exact (R184). -/
def messageTooLong (n : Nat) : Bool := decide (65536 ≤ 8 * n)

/-- ImageTooSmall: more bits than pixels (R185). -/
def imageTooSmall (nbits capacity : Nat) : Bool := decide (capacity < nbits)

/-- CapacityExceeded: more bits than the `BIT_CAP` of BITBUF (R182).  Every BITBUF holds 65544 bits (10_state.md R29), so
only a longer sequence is held against the implementation's choice; `capacityExceeded_iff` says it is `BIT_CAP < nbits`. -/
def capacityExceeded (nbits : Nat) : Bool := decide (65544 < nbits) && decide (Config.bitCap < nbits)

/-- MalformedData, case 1: no complete prefix (R186). -/
def prefixMissing (nbits : Nat) : Bool := decide (nbits < 16)

/-- MalformedData, cases 2 and 3: the prefix value `L` is not byte-aligned, or fewer than `L` bits follow it (R186). -/
def prefixMalformed (nbits L : Nat) : Bool := decide (L % 8 ≠ 0) || decide (nbits - 16 < L)

end Sys2Proof.Machine
end

