-- ==== Sys2Proof/Machine/Codec.lean ====
section
/-! DEFINITION. The pure functions of the Bit Codec (40_bit_codec.md R100 to R112).  A bit sequence is a list, position 0
first (00_scope.md R7). -/

namespace Sys2Proof.Machine

/-- `B(x)`: the bits of a byte, most significant first (R100). -/
def byteBits (x : Byte) : List Bool :=
  [x.getLsbD 7, x.getLsbD 6, x.getLsbD 5, x.getLsbD 4, x.getLsbD 3, x.getLsbD 2, x.getLsbD 1, x.getLsbD 0]

/-- `bytes_to_bits` (R100). -/
def bytesToBits : List Byte → List Bool
  | [] => []
  | x :: m => byteBits x ++ bytesToBits m

/-- `u16_to_bits`: the 16 bits of `L`, most significant first (R101). -/
def u16ToBits (L : Nat) : List Bool := (List.range 16).map fun j => L.testBit (15 - j)

/-- The unsigned value of bits, most significant first; `acc` is the value of the bits before them. -/
def bitsValue (acc : Nat) : List Bool → Nat
  | [] => acc
  | b :: p => bitsValue (2 * acc + b.toNat) p

/-- `bits_to_u16` (R102). -/
def bitsToU16 (p : List Bool) : Nat := bitsValue 0 p

/-- Eight bits, most significant first, as a byte: `byte(k)` of R103, and the packing of R62. -/
def packByte (p : List Bool) : Byte := BitVec.ofNat 8 (bitsValue 0 p)

/-- `bits_to_bytes`: bytes from consecutive groups of 8 bits (R103). -/
def bitsToBytes : List Bool → List Byte
  | b7 :: b6 :: b5 :: b4 :: b3 :: b2 :: b1 :: b0 :: s => packByte [b7, b6, b5, b4, b3, b2, b1, b0] :: bitsToBytes s
  | _ => []

/-- `encode` (R110), with the strict limit of 90_conflicts.md C1. -/
def codecEncode (m : List Byte) : Except StatusCode (List Bool) :=
  if messageTooLong m.length then .error .messageTooLong
  else .ok (u16ToBits (8 * m.length) ++ bytesToBits m)

/-- `decode` (R112). -/
def codecDecode (s : List Bool) : Except StatusCode (List Byte) :=
  if prefixMissing s.length then .error .malformedData
  else if prefixMalformed s.length (bitsToU16 (s.take 16)) then .error .malformedData
  else .ok (bitsToBytes ((s.drop 16).take (bitsToU16 (s.take 16))))

end Sys2Proof.Machine
end

