-- ==== Sys2Proof/Machine/Mapper.lean ====
section
/-! DEFINITION. The pure functions of the Pixel Channel Mapper (41_pixel_mapper.md R130 to R135). -/

namespace Sys2Proof.Machine

/-- `parity(v) = v mod 2 = v[0]` (R130). -/
def parity (v : Byte) : Bool := v.getLsbD 0

/-- `sub(v, b)`: `v` where its parity is `b`, else `(v + 1) mod 256` (R131, 90_conflicts.md C6 and C9). -/
def subParity (v : Byte) (b : Bool) : Byte := if parity v = b then v else v + 1#8

/-- `T(W, H)`: the pixels column by column, `x` outer and `y` inner (R132). -/
def traversal (W H : Nat) : List (Nat × Nat) :=
  (List.range W).flatMap fun x => (List.range H).map fun y => (x, y)

/-- `pixel_of(i, H) = (i div H, i mod H)` (R132). -/
def pixelOf (i H : Nat) : Nat × Nat := (i / H, i % H)

/-- A pixel memory as the map of section 1 of 41_pixel_mapper.md, from `(x, y, c)` to 8-bit values. -/
abbrev PixelMap := Nat → Nat → Channel → Byte

/-- `P'(x, y, 2) <- v` of R134. -/
def PixelMap.setBlue (P : PixelMap) (x y : Nat) (v : Byte) : PixelMap :=
  fun x' y' c => if x' = x ∧ y' = y ∧ c = Config.carrierChannel then v else P x' y' c

/-- The loop of `embed_img` from position `i` on: `P` is the map it reads, `P'` the one it builds (R134). -/
def embedLoop (P : PixelMap) (H : Nat) : Nat → List Bool → PixelMap → PixelMap
  | _, [], P' => P'
  | i, b :: s, P' =>
    embedLoop P H (i + 1) s
      (P'.setBlue (pixelOf i H).1 (pixelOf i H).2
        (subParity (P (pixelOf i H).1 (pixelOf i H).2 Config.carrierChannel) b))

/-- `embed_img` (R134). -/
def embedImg (s : List Bool) (P : PixelMap) (W H : Nat) : Except StatusCode PixelMap :=
  if imageTooSmall s.length (W * H) then .error .imageTooSmall else .ok (embedLoop P H 0 s P)

/-- `extract_img` (R135). -/
def extractImg (P : PixelMap) (W H : Nat) : List Bool :=
  (traversal W H).map fun p => parity (P p.1 p.2 Config.carrierChannel)

end Sys2Proof.Machine
end

