-- ==== Sys2Proof/Machine/Operands.lean ====
section
/-! DEFINITION. The implicit operands of the commands: how each is read from registers, buffers and pixel memory
(30_encoding.md R83, 20_memory.md R57). -/

namespace Sys2Proof.Machine

/-- `n`, the byte count of MSG_LEN (10_state.md R26). -/
def messageCount (s : State) : Nat := s.msgLen.toNat

/-- `bl`, the bit count of BIT_LEN (10_state.md R28). -/
def bitCount (s : State) : Nat := s.bitLen.toNat

/-- `W`, the image width of WIDTH[15:0] (10_state.md R30). -/
def imageWidth (s : State) : Nat := s.width.toNat

/-- `H`, the image height of HEIGHT[15:0] (10_state.md R31). -/
def imageHeight (s : State) : Nat := s.height.toNat

/-- The capacity `W * H`, exact (41_pixel_mapper.md R133). -/
def imageCapacity (s : State) : Nat := imageWidth s * imageHeight s

/-- `[MsgRead(0), …, MsgRead(n-1)]`, none when one of the bytes is unwritten (R57). -/
def messageOperand (s : State) (n : Nat) : Option (List Byte) := Memory.readRange s.msg 0 n

/-- `[BitRead(i), …, BitRead(i+n-1)]`, none when one of the bits is unwritten (R57). -/
def bitsOperand (s : State) (i n : Nat) : Option (List Bool) := Memory.readRange s.bits i n

/-- The port accesses that embed a bit sequence from position `i` on, in traversal order: for each bit one PixRead, then
a PixWrite of the same location only when `sub` changes the value (41_pixel_mapper.md R141, R143).  Every read sees the
state from before the command (R57).  None when a pixel it reads is not loaded. -/
def embedAccesses (p : PixelMemory) (H : Nat) : Nat → List Bool → Option (List PortAccess)
  | _, [] => some []
  | i, b :: s =>
    match pixRead p (pixelOf i H).1 (pixelOf i H).2 Config.carrierChannel, embedAccesses p H (i + 1) s with
    | some v, some l =>
      if subParity v b = v then
        some (.read (pixelOf i H).1 (pixelOf i H).2 Config.carrierChannel v :: l)
      else
        some (.read (pixelOf i H).1 (pixelOf i H).2 Config.carrierChannel v ::
          .write (pixelOf i H).1 (pixelOf i H).2 Config.carrierChannel (subParity v b) :: l)
    | _, _ => none

/-- The blue values of the pixels in a list, in its order; none when one of them is not loaded. -/
def readBlues (p : PixelMemory) : List (Nat × Nat) → Option (List Byte)
  | [] => some []
  | q :: l =>
    match pixRead p q.1 q.2 Config.carrierChannel, readBlues p l with
    | some v, some vs => some (v :: vs)
    | _, _ => none

/-- The port reads that give the values `vs` of the pixels in a list (41_pixel_mapper.md R144). -/
def readAccesses : List (Nat × Nat) → List Byte → List PortAccess
  | q :: l, v :: vs => .read q.1 q.2 Config.carrierChannel v :: readAccesses l vs
  | _, _ => []

end Sys2Proof.Machine
end

