-- ==== Sys2Proof/Machine/BitCodec.lean ====
section
/-! DEFINITION. The Bit Codec commands ENCODE and DECODE (40_bit_codec.md R120, R121). -/

namespace Sys2Proof.Machine

/-- ENCODE (R120). -/
def execEncode (s : State) : Result :=
  if messageTooLong (messageCount s) then raise .messageTooLong s
  else
    orFault (messageOperand s (messageCount s)) fun m =>
    orRaise (codecEncode m) s fun b =>
    commit (s.setBitSequence b)

/-- DECODE once the prefix value `L` is read: its tests, then the message bits (R121). -/
def decodeMessage (s : State) (L : Nat) : Result :=
  if prefixMalformed (bitCount s) L then raise .malformedData s
  else orFault (bitsOperand s 16 L) fun b => commit (s.setMessage (bitsToBytes b))

/-- DECODE (R121). -/
def execDecode (s : State) : Result :=
  if capacityExceeded (bitCount s) then raise .capacityExceeded s
  else if prefixMissing (bitCount s) then raise .malformedData s
  else orFault (bitsOperand s 0 16) fun p => decodeMessage s (bitsToU16 p)

end Sys2Proof.Machine
end

