-- ==== Sys2Proof/Machine/PixelMapper.lean ====
section
/-! DEFINITION. The Pixel Channel Mapper commands SUB, EMBED and EXTRACT (41_pixel_mapper.md R140 to R142). -/

namespace Sys2Proof.Machine

/-- SUB v, b (R140). -/
def execSub (v : Byte) (b : Bool) (s : State) : Result := commit (s.setSubResult (subParity v b))

/-- Embed a bit sequence into the blue channel of the first pixels of the traversal order, and commit: the common end of
EMBED and ENCRYPT (R141, 42_pipeline.md R161). -/
def embedBits (b : List Bool) (s : State) : Result :=
  orFault (embedAccesses s.image (imageHeight s) 0 b) fun l => commit ((s.commitPixels l).logPort l)

/-- EMBED (R141). -/
def execEmbed (s : State) : Result :=
  if capacityExceeded (bitCount s) then raise .capacityExceeded s
  else if imageTooSmall (bitCount s) (imageCapacity s) then raise .imageTooSmall s
  else orFault (bitsOperand s 0 (bitCount s)) fun b => embedBits b s

/-- Read the blue value of every pixel in traversal order, and go on with the parities and with the state in which the
observer has seen the reads: the common start of EXTRACT and DECRYPT (R142, R144, 42_pipeline.md R162). -/
def withExtractedBits (s : State) (k : List Bool → State → Result) : Result :=
  orFault (readBlues s.image (traversal (imageWidth s) (imageHeight s))) fun vs =>
  k (vs.map parity) (s.logPort (readAccesses (traversal (imageWidth s) (imageHeight s)) vs))

/-- EXTRACT (R142). -/
def execExtract (s : State) : Result :=
  if capacityExceeded (imageCapacity s) then raise .capacityExceeded s
  else withExtractedBits s fun b t => commit (t.setBitSequence b)

end Sys2Proof.Machine
end

