-- ==== Sys2Proof/Machine/Pipeline.lean ====
section
/-! DEFINITION. The pipeline commands ENCRYPT and DECRYPT (42_pipeline.md R160 to R162).  The bit sequence between their
stages is a value inside the command, never BITBUF or BIT_LEN (R160). -/

namespace Sys2Proof.Machine

/-- ENCRYPT (R161). -/
def execEncrypt (s : State) : Result :=
  if messageTooLong (messageCount s) then raise .messageTooLong s
  else if imageTooSmall (16 + 8 * messageCount s) (imageCapacity s) then raise .imageTooSmall s
  else
    orFault (messageOperand s (messageCount s)) fun m =>
    orRaise (codecEncode m) s fun b =>
    embedBits b s

/-- DECRYPT (R162).  It reads every pixel before it tests anything (60_exceptions.md R189). -/
def execDecrypt (s : State) : Result :=
  withExtractedBits s fun b t => orRaise (codecDecode b) t fun m => commit (t.setMessage m)

end Sys2Proof.Machine
end

