-- ==== Sys2Proof/Machine/HostPort.lean ====
section
/-! DEFINITION. The host register port: its address map, the registers and the two byte windows as the host sees them
(20_memory.md R50 to R65, 10_state.md R23 to R34).  A write of CMD, which starts a command, is Machine/HostEvents.lean's. -/

namespace Sys2Proof.Machine

/-- The named registers of the register window (10_state.md R23). -/
inductive Reg where
  | cmd
  | status
  | msgLen
  | bitLen
  | width
  | height
  | subResult
  | bitcap
  deriving DecidableEq, Repr

/-- The offset of a register (R60). -/
def regOffset : Reg → Nat
  | .cmd => 0x000
  | .status => 0x004
  | .msgLen => 0x008
  | .bitLen => 0x00C
  | .width => 0x010
  | .height => 0x014
  | .subResult => 0x018
  | .bitcap => 0x01C

/-- The register at an offset of the register window; the offsets from 0x020 on are reserved (R34, R60). -/
def regAt (o : Nat) : Option Reg :=
  match o with
  | 0x000 => some .cmd
  | 0x004 => some .status
  | 0x008 => some .msgLen
  | 0x00C => some .bitLen
  | 0x010 => some .width
  | 0x014 => some .height
  | 0x018 => some .subResult
  | 0x01C => some .bitcap
  | _ => none

/-- The parts of host space (R50). -/
inductive Region where
  /-- Offset `o` of the register window (R60). -/
  | register (o : Nat)
  /-- MSG byte `k` (R61). -/
  | message (k : Nat)
  /-- BITBUF byte `k` (R62). -/
  | bitbuf (k : Nat)
  /-- Reserved host space (R63). -/
  | reserved
  deriving DecidableEq, Repr

/-- Where the bit-buffer window begins (R62). -/
abbrev bitWindow : Nat := 0x10000000

/-- Whether the bit-buffer window has byte `k`: `k < BIT_CAP / 8` (R62).  Every BITBUF has 8193 bytes (10_state.md R29);
`hasBitByte_iff` says it is `k < bitCapBytes`. -/
def hasBitByte (k : Nat) : Bool := decide (k < 8193) || decide (k < Config.bitCapBytes)

/-- The address map (R60 to R63). -/
def regionOf (o : Nat) : Region :=
  if o < 0x1000 then .register o
  else if o - 0x1000 < Config.msgCap then .message (o - 0x1000)
  else if o < bitWindow then .reserved
  else if hasBitByte (o - bitWindow) then .bitbuf (o - bitWindow)
  else .reserved

/-- Whether every byte of an access that starts at a reserved offset is reserved host space (assumption 9). -/
def reservedSpan (o bytes : Nat) : Bool :=
  decide (1 ≤ bytes) && (decide (o + bytes ≤ bitWindow) || (decide (bitWindow ≤ o) && decide (o + bytes ≤ 2 ^ 32)))

/-- Whether the port supports an access: an aligned 32-bit one in the register window (R53), an 8-bit one in the byte
windows (R54), any in reserved host space (R63). -/
def supported (o bytes : Nat) : Bool :=
  match regionOf o with
  | .register o => decide (bytes = 4) && decide (o % 4 = 0)
  | .message _ => decide (bytes = 1)
  | .bitbuf _ => decide (bytes = 1)
  | .reserved => reservedSpan o bytes

/-- What a host read of a register returns (10_state.md R24 to R33). -/
def readReg (s : State) : Reg → Word
  | .cmd => 0#32
  | .status => (statusNumber s.status).setWidth 32
  | .msgLen => s.msgLen
  | .bitLen => s.bitLen
  | .width => s.width.setWidth 32
  | .height => s.height.setWidth 32
  | .subResult => s.subResult.setWidth 32
  | .bitcap => BitVec.ofNat 32 Config.bitCap

/-- A host write of a register other than CMD: MSG_LEN and BIT_LEN take all 32 bits, WIDTH and HEIGHT the low 16, and a
write of a read-only register is ignored (10_state.md R25 to R33). -/
def writeReg (v : Word) (s : State) : Reg → State
  | .cmd => s
  | .status => s
  | .msgLen => { s with msgLen := v }
  | .bitLen => { s with bitLen := v }
  | .width => { s with width := v.setWidth 16 }
  | .height => { s with height := v.setWidth 16 }
  | .subResult => s
  | .bitcap => s

/-- MSG byte `k` as the host reads it: an unwritten byte gives any value (R61, 93_implementation_defined.md U11). -/
def hostMsgByte (s : State) (k : Nat) : Byte := (Memory.read s.msg k).getD (Config.unwrittenMsgByte s.resets k)

/-- BITBUF position `i` as the host reads it: an unwritten bit gives any value (R62). -/
def hostBit (s : State) (i : Nat) : Bool := (Memory.read s.bits i).getD (Config.unwrittenBit s.resets i)

/-- Byte `k` of the bit-buffer window: bit `7 - j` is BITBUF[8k + j] (R62). -/
def hostBitbufByte (s : State) (k : Nat) : Byte := packByte ((List.range 8).map fun j => hostBit s (8 * k + j))

/-- The data of a supported host read (R60 to R63).  Reserved offsets read 0 (R34, R63). -/
def readData (s : State) (o : Nat) : Word :=
  match regionOf o with
  | .register o =>
    match regAt o with
    | some r => readReg s r
    | none => 0#32
  | .message k => (hostMsgByte s k).setWidth 32
  | .bitbuf k => (hostBitbufByte s k).setWidth 32
  | .reserved => 0#32

/-- The state after a supported host write that starts no command (R60 to R63).  A byte window takes the low 8 data bits
and marks what it writes written (R61, R62); the lengths do not change (70_reset_and_hazards.md R226, R227).  Reserved
offsets ignore writes (R34, R63). -/
def writeData (o : Nat) (v : Word) (s : State) : State :=
  match regionOf o with
  | .register o =>
    match regAt o with
    | some r => writeReg v s r
    | none => s
  | .message k => { s with msg := Memory.write s.msg k (v.setWidth 8) }
  | .bitbuf k => { s with bits := Memory.writeFrom s.bits (8 * k) (byteBits (v.setWidth 8)) }
  | .reserved => s

/-- A host read: its data is returned to the host, and nothing else changes (R56).  An unsupported access is refused
(60_exceptions.md R200). -/
def hostRead (o bytes : Nat) (s : State) : Result :=
  if supported o bytes then .next (s.reply (readData s o)) else .refused .unsupportedAccess

/-- The host address of an offset (R51). -/
def hostAddress (o : Word) : Nat := Config.blockBase + o.toNat

/-- The offset of a host address, none outside the block's 2^32-byte range (R51). -/
def offsetOf (a : Nat) : Option Word :=
  if Config.blockBase ≤ a ∧ a - Config.blockBase < 2 ^ 32 then some (BitVec.ofNat 32 (a - Config.blockBase)) else none

end Sys2Proof.Machine
end

