-- ==== Sys2Proof/Machine/HostEvents.lean ====
section
/-! DEFINITION. What each act of the host does to the system: host accesses, commands, reset and image loading
(10_state.md R20, R24, 70_reset_and_hazards.md R210, R220). -/

namespace Sys2Proof.Machine

/-- A write of CMD performs the command of the word at once; an illegal word is performed as `raise IllegalCommand()`
(10_state.md R24, 30_encoding.md R85, 60_exceptions.md R183). -/
def runCommand (w : Word) (s : State) : Result :=
  match decode w with
  | .ok i => exec i s
  | .error _ => raise .illegalCommand s

/-- A host write: of CMD it starts a command, elsewhere it stores (10_state.md R24).  An unsupported access is refused
(60_exceptions.md R200). -/
def hostWrite (o bytes : Nat) (v : Word) (s : State) : Result :=
  if supported o bytes then
    if o = regOffset .cmd then runCommand v s else .next (writeData o v s)
  else .refused .unsupportedAccess

/-- The host loads one channel value of the image (assumption 6). -/
def hostLoadPixel (x y : Dim) (c : Channel) (v : Byte) (s : State) : Result :=
  match loadPixel? x y c v s with
  | some t => .next t
  | none => .refused .noSuchPixel

/-- One act of the host. -/
def runEvent (e : HostEvent) (s : State) : Result :=
  match e with
  | .write o bytes v => hostWrite o.toNat bytes v s
  | .read o bytes => hostRead o.toNat bytes s
  | .reset => .next (resetBlock s)
  | .newImage w h => .next (newImage w h s)
  | .loadPixel x y c v => hostLoadPixel x y c v s

end Sys2Proof.Machine
end

