-- ==== Sys2Proof/Machine/Step.lean ====
section
/-! DEFINITION. One step of the system: the host's next act, in the one total order of its acts (20_memory.md R66). -/

namespace Sys2Proof.Machine

/-- The host's next act happens whole.  With nothing left to do the block is idle and holds its state
(10_state.md R20, 60_exceptions.md R199). -/
def step (s : State) : Host.Outcome State Fault Refusal :=
  match s.script with
  | [] => .next s
  | e :: l => runEvent e (s.setScript l)

/-- The command word is not fetched: it is the value of the host's CMD write (20_memory.md R70).  So the word is placed as
the data of a CMD write that the host does next (assumption 5). -/
def State.withFetchWord (s : State) (nbits w : Nat) : State :=
  s.setScript (.write 0#32 4 (tableWord nbits w) :: s.script)

end Sys2Proof.Machine
end

