-- ==== Sys2Proof/Machine/Script.lean ====
section
/-! DEFINITION. The host script syntax and its pseudo-instructions, as the host acts they stand for
(30_encoding.md R88, R89). -/

namespace Sys2Proof.Machine

/-- `wr <REG>, <value32>` (R88). -/
def wr (r : Reg) (v : Word) : HostEvent := .write (BitVec.ofNat 32 (regOffset r)) 4 v

/-- `rd <REG>` (R88), and the access of `expect <REG> = <value>` (R89). -/
def rd (r : Reg) : HostEvent := .read (BitVec.ofNat 32 (regOffset r)) 4

/-- `wrb MSG[<k>], <byte>` (R88). -/
def wrbMsg (k : Nat) (v : Byte) : HostEvent := .write (BitVec.ofNat 32 (0x1000 + k)) 1 (v.setWidth 32)

/-- `rdb MSG[<k>]` (R88). -/
def rdbMsg (k : Nat) : HostEvent := .read (BitVec.ofNat 32 (0x1000 + k)) 1

/-- `wrb BITS[<k>], <byte>` (R88). -/
def wrbBits (k : Nat) (v : Byte) : HostEvent := .write (BitVec.ofNat 32 (bitWindow + k)) 1 (v.setWidth 32)

/-- `rdb BITS[<k>]` (R88). -/
def rdbBits (k : Nat) : HostEvent := .read (BitVec.ofNat 32 (bitWindow + k)) 1

/-- A command on a line of its own: `wr CMD, <assembled word>` (R89). -/
def command (i : Instr) : HostEvent := wr .cmd (encode i)

/-- The byte writes of `loadmsg` from byte `k` on. -/
def messageWrites (k : Nat) : List Byte → List HostEvent
  | [] => []
  | v :: m => wrbMsg k v :: messageWrites (k + 1) m

/-- `loadmsg [b0, …]` (R89). -/
def loadmsg (m : List Byte) : List HostEvent := messageWrites 0 m ++ [wr .msgLen (BitVec.ofNat 32 m.length)]

/-- `byte_k` of `loadbits`: the characters `8k` to `8k + 7`, 0 beyond the string (R89). -/
def paddedByte (b : List Bool) (k : Nat) : Byte := packByte ((List.range 8).map fun j => (b[8 * k + j]?).getD false)

/-- `loadbits "<s>"` (R89). -/
def loadbits (b : List Bool) : List HostEvent :=
  (List.range ((b.length + 7) / 8)).map (fun k => wrbBits k (paddedByte b k)) ++ [wr .bitLen (BitVec.ofNat 32 b.length)]

/-- `setdim <W>, <H>` (R89). -/
def setdim (W H : Word) : List HostEvent := [wr .width W, wr .height H]

end Sys2Proof.Machine
end

