-- ==== Sys2Proof/Safety.lean ====
section
/-! DEFINITION. What counts as a sound state and as a loaded image, in the terms claims use. -/

namespace Sys2Proof.Machine

/-- A canonical memory whose every key is below a bound. -/
def Memory.within {α : Type} (m : Memory α) (bound : Nat) : Prop := Memory.wf m ∧ ∀ k v, (k, v) ∈ m → k < bound

/-- Pixel memory in canonical form, holding only locations the image has (10_state.md R35). -/
def PixelMemory.sound (p : PixelMemory) : Prop :=
  Memory.wf p.cells ∧ ∀ k v, (k, v) ∈ p.cells → ∃ x y c, p.inGrid x y c = true ∧ k = pixKey x y c

/-- The invariant of the block and its pixel memory: MSG holds bytes 0 to 8190 (R27), BITBUF positions below `BIT_CAP`
(R29), pixel memory only pixels of the image (R35), and STATUS a code the block writes (60_exceptions.md R180, R187). -/
structure State.Inv (s : State) : Prop where
  msg : Memory.within s.msg Config.msgCap
  bits : Memory.within s.bits Config.bitCap
  image : s.image.sound
  status : blockWrites s.status = true

/-- The blue value of every pixel of the first `n` in traversal order is loaded (70_reset_and_hazards.md R220 step 2). -/
def BlueLoaded (p : PixelMemory) (H n : Nat) : Prop :=
  ∀ i, i < n → (pixRead p (pixelOf i H).1 (pixelOf i H).2 .blue).isSome = true

/-- MSG[0..len(m)) is written and holds `m`. -/
def HoldsMessage (s : State) (m : List Byte) : Prop := ∀ k, k < m.length → Memory.read s.msg k = m[k]?

/-- BITBUF[i..i+len(b)) is written and holds `b`. -/
def HoldsBits (s : State) (i : Nat) (b : List Bool) : Prop := ∀ j, j < b.length → Memory.read s.bits (i + j) = b[j]?

/-- Whether an outcome is a next state that passes a check. -/
def nextAnd (o : Result) (p : State → Bool) : Bool :=
  match o with
  | .next s => p s
  | .fault _ => false
  | .refused _ => false

/-- Whether an outcome is the given fault. -/
def faultsWith (o : Result) (f : Fault) : Bool :=
  match o with
  | .next _ => false
  | .fault g => g == f
  | .refused _ => false

/-- Whether an outcome is the given refusal. -/
def refusesWith (o : Result) (r : Refusal) : Bool :=
  match o with
  | .next _ => false
  | .fault _ => false
  | .refused q => q == r

/-- The system after every act of a host script, from a state (a *run* of 70_reset_and_hazards.md R225). -/
def runScript (s : State) : List HostEvent → Result
  | [] => .next s
  | e :: l =>
    match runEvent e s with
    | .next t => runScript t l
    | .fault f => .fault f
    | .refused r => .refused r

end Sys2Proof.Machine
end

