-- ==== Sys2Proof/Certificates/Slice0/Obligations.lean ====
section
/-! DEFINITION. The statements for the provers.  A frame is written `t = { s with f := t.f, … }`: every field of the state
that is not named is unchanged. -/

open Sys2Proof Sys2Proof.Machine

/-! ### The command word -/

/-- Decoding an encoded command gives it back, with every operand (30_encoding.md R81, R85). -/
def Obligations.DecodeOfEncodeIsTheCommand : Prop := ∀ i : Instr, decode (encode i) = .ok i

/-- A legal word is the encoding of the command it decodes to, so no two words mean one command (R81, R85). -/
def Obligations.EncodeOfDecodeIsTheWord : Prop := ∀ (w : Word) (i : Instr), decode w = .ok i → encode i = w

/-- R85: `decode_cmd` word by word, what an illegal word performs, and the count of the legal words. -/
def Obligations.DecodeCmdOnEveryWord : Prop :=
  (∀ (w : Word) (i : Instr), decode w = .ok i ↔
    ((i = .encode ∧ w = 1#32) ∨ (i = .decode ∧ w = 2#32) ∨ (i = .embed ∧ w = 4#32) ∨ (i = .extract ∧ w = 5#32) ∨
      (i = .encrypt ∧ w = 6#32) ∨ (i = .decrypt ∧ w = 7#32) ∨
      (w &&& 0xF#32 = 3#32 ∧ w >>> 13 = 0#32 ∧
        i = .sub (BitVec.ofNat 8 (w.toNat / 16)) (w.toNat / 4096 % 2 == 1)))) ∧
  (∀ (w : Word) (s : State), (∀ i, decode w ≠ .ok i) → runCommand w s = .next { s with status := .illegalCommand }) ∧
  Nat.card { w : Word // ∃ i, decode w = .ok i } = 518

/-- A few words written out from the encodings of 30_encoding.md section 1 decode to their commands (95_test_vectors.md 2.8). -/
def Obligations.WrittenOutWordsDecode : Prop :=
  decode 0b00000000000000000000000000000001#32 = .ok .encode ∧
  decode 0b00000000000000000001111111110011#32 = .ok (.sub 255#8 true) ∧
  decode 0b00000000000000000000000000000111#32 = .ok .decrypt ∧
  decode 0b00000000000000000000000000010001#32 = .error .reservedBits ∧
  decode 0b00000000000000000000000000001000#32 = .error .reservedOpcode

/-- R24: a CMD write performs the command of its word at once; CMD keeps no value. -/
def Obligations.CmdWriteRunsTheDecodedCommand : Prop :=
  ∀ (s : State) (l : List HostEvent) (w : Word),
    (∀ i, s.script = .write 0#32 4 w :: l → decode w = .ok i → step s = exec i { s with script := l }) ∧
    (∀ e, s.script = .write 0#32 4 w :: l → decode w = .error e →
      step s = .next { s with script := l, status := .illegalCommand }) ∧
    (s.script = .read 0#32 4 :: l → step s = .next { s with script := l, replies := s.replies ++ [0#32] })

/-- R183: a reserved opcode, or a legal one with a non-zero reserved bit, changes nothing but STATUS. -/
def Obligations.IllegalWordsOnlySetStatus : Prop :=
  ∀ (s : State) (l : List HostEvent) (w : Word), s.script = .write 0#32 4 w :: l →
    (w.toNat % 16 = 0 ∨ 8 ≤ w.toNat % 16 ∨ (w.toNat % 16 = 3 ∧ 2 ^ 13 ≤ w.toNat) ∨
      (w.toNat % 16 ≠ 3 ∧ 16 ≤ w.toNat)) →
    step s = .next { s with script := l, status := .illegalCommand }

/-! ### The Bit Codec's functions -/

/-- R100. -/
def Obligations.BytesToBitsIsMsbFirst : Prop :=
  bytesToBits [] = [] ∧
  ∀ m : List Byte, (bytesToBits m).length = 8 * m.length ∧
    ∀ k j, j ≤ 7 → (bytesToBits m)[8 * k + j]? = (m[k]?).map fun x => x.getLsbD (7 - j)

/-- R101 and R102. -/
def Obligations.PrefixIsSixteenBitsBigEndian : Prop :=
  (∀ L, L < 65536 → (u16ToBits L).length = 16 ∧ ∀ j, j < 16 → (u16ToBits L)[j]? = some (L.testBit (15 - j))) ∧
  (∀ p : List Bool, p.length = 16 →
    bitsToU16 p = ((List.range 16).map fun j => ((p[j]?).getD false).toNat * 2 ^ (15 - j)).sum)

/-- R103. -/
def Obligations.BitsToBytesIsMsbFirst : Prop :=
  ∀ s : List Bool, s.length % 8 = 0 → (bitsToBytes s).length = s.length / 8 ∧
    ∀ k, k < s.length / 8 → ∃ x, (bitsToBytes s)[k]? = some x ∧
      x.toNat = ((List.range 8).map fun j => ((s[8 * k + j]?).getD false).toNat * 2 ^ (7 - j)).sum

/-- R104. -/
def Obligations.BitAndByteFunctionsAreInverse : Prop :=
  (∀ m : List Byte, bitsToBytes (bytesToBits m) = m) ∧
  (∀ s : List Bool, s.length % 8 = 0 → bytesToBits (bitsToBytes s) = s) ∧
  (∀ L, L < 65536 → bitsToU16 (u16ToBits L) = L) ∧
  (∀ p : List Bool, p.length = 16 → u16ToBits (bitsToU16 p) = p)

/-- R111. -/
def Obligations.EncodedSequenceShape : Prop :=
  (∀ (m : List Byte) (s : List Bool), codecEncode m = .ok s →
    s.length = 16 + 8 * m.length ∧ s.take 16 = u16ToBits (8 * m.length) ∧
    ∀ k j, k < m.length → j ≤ 7 → s[16 + 8 * k + j]? = (m[k]?).map fun x => x.getLsbD (7 - j)) ∧
  codecEncode [] = .ok (List.replicate 16 false)

/-- R113. -/
def Obligations.TrailingBitsAreIgnored : Prop :=
  ∀ s s' : List Bool, 16 ≤ s.length → 16 ≤ s'.length →
    s.take (16 + bitsToU16 (s.take 16)) = s'.take (16 + bitsToU16 (s.take 16)) →
    (s.length - 16 < bitsToU16 (s.take 16) ↔ s'.length - 16 < bitsToU16 (s.take 16)) →
    codecDecode s = codecDecode s'

/-- R115. -/
def Obligations.CodecRoundTrip : Prop :=
  (∀ m : List Byte, m.length ≤ 8191 → ∃ s, codecEncode m = .ok s ∧ ∀ t : List Bool, codecDecode (s ++ t) = .ok m) ∧
  (∀ m : List Byte, 8192 ≤ m.length → codecEncode m = .error .messageTooLong) ∧
  (∀ (s : List Bool) (m : List Byte), codecDecode s = .ok m → m.length ≤ 8191)

/-! ### The Pixel Channel Mapper's functions -/

/-- R131, and the SUB command that shows it. -/
def Obligations.SubCompletesWithTheAdjustedValue : Prop :=
  ∀ (v : Byte) (b : Bool) (s : State),
    subParity v b = (if v.toNat % 2 = b.toNat then v else BitVec.ofNat 8 ((v.toNat + 1) % 256)) ∧
    exec (.sub v b) s = .next { s with
      subResult := if v.toNat % 2 = b.toNat then v else BitVec.ofNat 8 ((v.toNat + 1) % 256), status := .ok }

/-- R137. -/
def Obligations.LawsOfSub : Prop :=
  ∀ (v : Byte) (b : Bool),
    parity (subParity v b) = b ∧ subParity (subParity v b) b = subParity v b ∧
    (subParity v b = v ∨ (subParity v b).toNat = (v.toNat + 1) % 256) ∧
    subParity 255#8 false = 0#8 ∧ subParity 255#8 true = 255#8 ∧
    ((subParity v b).toNat < v.toNat → v = 255#8 ∧ b = false)

/-- R132. -/
def Obligations.TraversalIsColumnMajor : Prop :=
  ∀ W H : Nat, (traversal W H).length = W * H ∧
    (∀ i, 0 < H → i < W * H →
      (traversal W H)[i]? = some (i / H, i % H) ∧ pixelOf i H = (i / H, i % H) ∧ i / H < W ∧ i % H < H) ∧
    (∀ x y, x < W → y < H → ∃ i, i < W * H ∧ pixelOf i H = (x, y) ∧
      ∀ j, j < W * H → pixelOf j H = (x, y) → j = i)

/-- R136. -/
def Obligations.EmbedImgIsNonDestructive : Prop :=
  ∀ (s : List Bool) (P P' : PixelMap) (W H : Nat), embedImg s P W H = .ok P' →
    (∀ x y c, c ≠ .blue → P' x y c = P x y c) ∧
    (∀ i, s.length ≤ i → i < W * H → P' (pixelOf i H).1 (pixelOf i H).2 .blue = P (pixelOf i H).1 (pixelOf i H).2 .blue) ∧
    (∀ i b, s[i]? = some b → parity (P (pixelOf i H).1 (pixelOf i H).2 .blue) = b →
      P' (pixelOf i H).1 (pixelOf i H).2 .blue = P (pixelOf i H).1 (pixelOf i H).2 .blue)

/-- R138. -/
def Obligations.ExtractUndoesEmbed : Prop :=
  ∀ (s : List Bool) (P P' : PixelMap) (W H : Nat), embedImg s P W H = .ok P' →
    (extractImg P' W H).take s.length = s ∧
    ∀ i, s.length ≤ i → i < W * H → (extractImg P' W H)[i]? = (extractImg P W H)[i]?

/-! ### The commands complete -/

/-- ENCODE's success (40_bit_codec.md R120), with its frame. -/
def Obligations.EncodeCompletes : Prop :=
  ∀ (s : State) (m : List Byte), s.msgLen.toNat = m.length → 8 * m.length < 65536 → HoldsMessage s m →
    ∃ t, exec .encode s = .next t ∧ t.status = .ok ∧ t.bitLen.toNat = 16 + 8 * m.length ∧
      HoldsBits t 0 (u16ToBits (8 * m.length) ++ bytesToBits m) ∧
      (∀ i, 16 + 8 * m.length ≤ i → Memory.read t.bits i = Memory.read s.bits i) ∧
      t = { s with status := .ok, bitLen := t.bitLen, bits := t.bits }

/-- DECODE's success (R121), with its frame: `p` is the prefix, `q` the message bits. -/
def Obligations.DecodeCompletes : Prop :=
  ∀ (s : State) (p q : List Bool), s.bitLen.toNat ≤ Config.bitCap → p.length = 16 → HoldsBits s 0 p →
    q.length = bitsToU16 p → q.length % 8 = 0 → 16 + q.length ≤ s.bitLen.toNat → HoldsBits s 16 q →
    ∃ t, exec .decode s = .next t ∧ t.status = .ok ∧ t.msgLen.toNat = q.length / 8 ∧
      HoldsMessage t (bitsToBytes q) ∧ (bitsToBytes q).length = q.length / 8 ∧
      (∀ k, q.length / 8 ≤ k → Memory.read t.msg k = Memory.read s.msg k) ∧
      t = { s with status := .ok, msgLen := t.msgLen, msg := t.msg }

/-- EMBED's success (41_pixel_mapper.md R141), with its frame: the blue values of the first BIT_LEN pixels are adjusted,
and every other location of pixel memory reads as before. -/
def Obligations.EmbedCompletes : Prop :=
  ∀ (s : State) (b : List Bool), b.length = s.bitLen.toNat → b.length ≤ Config.bitCap →
    b.length ≤ s.width.toNat * s.height.toNat → HoldsBits s 0 b → BlueLoaded s.image s.height.toNat b.length →
    ∃ t, exec .embed s = .next t ∧
      (∀ i x, b[i]? = some x →
        pixRead t.image (pixelOf i s.height.toNat).1 (pixelOf i s.height.toNat).2 .blue =
          (pixRead s.image (pixelOf i s.height.toNat).1 (pixelOf i s.height.toNat).2 .blue).map (subParity · x)) ∧
      (∀ x y c, (c = .blue → ∀ i, i < b.length → pixelOf i s.height.toNat ≠ (x, y)) →
        pixRead t.image x y c = pixRead s.image x y c) ∧
      t.image.width = s.image.width ∧ t.image.height = s.image.height ∧
      t = { s with status := .ok, image := t.image, portLog := t.portLog }

/-- EXTRACT's success (R142), with its frame. -/
def Obligations.ExtractCompletes : Prop :=
  ∀ s : State, s.width.toNat * s.height.toNat ≤ Config.bitCap →
    BlueLoaded s.image s.height.toNat (s.width.toNat * s.height.toNat) →
    ∃ t, exec .extract s = .next t ∧ t.bitLen.toNat = s.width.toNat * s.height.toNat ∧
      (∀ i, i < s.width.toNat * s.height.toNat → Memory.read t.bits i =
        (pixRead s.image (pixelOf i s.height.toNat).1 (pixelOf i s.height.toNat).2 .blue).map parity) ∧
      (∀ i, s.width.toNat * s.height.toNat ≤ i → Memory.read t.bits i = Memory.read s.bits i) ∧
      t = { s with status := .ok, bitLen := t.bitLen, bits := t.bits, portLog := t.portLog }

/-- ENCRYPT's success (42_pipeline.md R161), with its frame. -/
def Obligations.EncryptCompletes : Prop :=
  ∀ (s : State) (m : List Byte), s.msgLen.toNat = m.length → 8 * m.length < 65536 →
    16 + 8 * m.length ≤ s.width.toNat * s.height.toNat → HoldsMessage s m →
    BlueLoaded s.image s.height.toNat (16 + 8 * m.length) →
    ∃ t, exec .encrypt s = .next t ∧
      (∀ i x, (u16ToBits (8 * m.length) ++ bytesToBits m)[i]? = some x →
        pixRead t.image (pixelOf i s.height.toNat).1 (pixelOf i s.height.toNat).2 .blue =
          (pixRead s.image (pixelOf i s.height.toNat).1 (pixelOf i s.height.toNat).2 .blue).map (subParity · x)) ∧
      (∀ x y c, (c = .blue → ∀ i, i < 16 + 8 * m.length → pixelOf i s.height.toNat ≠ (x, y)) →
        pixRead t.image x y c = pixRead s.image x y c) ∧
      t.image.width = s.image.width ∧ t.image.height = s.image.height ∧
      t = { s with status := .ok, image := t.image, portLog := t.portLog }

/-- DECRYPT's success (R162), with its frame: `p` is the prefix, `q` the message bits, `r` the rest of the image's bits. -/
def Obligations.DecryptCompletes : Prop :=
  ∀ (s : State) (p q r : List Bool),
    (p ++ q ++ r).length = s.width.toNat * s.height.toNat →
    (∀ i, i < s.width.toNat * s.height.toNat →
      (pixRead s.image (pixelOf i s.height.toNat).1 (pixelOf i s.height.toNat).2 .blue).map parity = (p ++ q ++ r)[i]?) →
    p.length = 16 → q.length = bitsToU16 p → q.length % 8 = 0 →
    ∃ t, exec .decrypt s = .next t ∧ t.msgLen.toNat = q.length / 8 ∧
      HoldsMessage t (bitsToBytes q) ∧ (bitsToBytes q).length = q.length / 8 ∧
      (∀ k, q.length / 8 ≤ k → Memory.read t.msg k = Memory.read s.msg k) ∧
      t = { s with status := .ok, msgLen := t.msgLen, msg := t.msg, portLog := t.portLog }

/-! ### The commands agree with the pure functions and with each other -/

/-- DECODE's result equals `decode(BITBUF[0..bl))` (40_bit_codec.md R121). -/
def Obligations.DecodeRefinesTheCodec : Prop :=
  ∀ (s : State) (b : List Bool), b.length = s.bitLen.toNat → b.length ≤ Config.bitCap → HoldsBits s 0 b →
    (∀ c, codecDecode b = .error c → exec .decode s = .next { s with status := c }) ∧
    (∀ m, codecDecode b = .ok m → ∃ t, exec .decode s = .next t ∧ t.status = .ok ∧ t.msgLen.toNat = m.length ∧
      HoldsMessage t m)

/-- On success EMBED makes pixel memory `embed_img(BITBUF[0..bl), P, W, H)` (41_pixel_mapper.md R141); where `embed_img`
fails, so does EMBED. -/
def Obligations.EmbedRefinesEmbedImg : Prop :=
  ∀ (s : State) (P : PixelMap) (b : List Bool), b.length = s.bitLen.toNat → b.length ≤ Config.bitCap → HoldsBits s 0 b →
    (∀ x y c v, pixRead s.image x y c = some v → P x y c = v) →
    (∀ c, embedImg b P s.width.toNat s.height.toNat = .error c → exec .embed s = .next { s with status := c }) ∧
    (∀ P', embedImg b P s.width.toNat s.height.toNat = .ok P' → BlueLoaded s.image s.height.toNat b.length →
      ∃ t, exec .embed s = .next t ∧ t.status = .ok ∧
        ∀ x y c, pixRead t.image x y c = (pixRead s.image x y c).map fun _ => P' x y c)

/-- On success BITBUF[0..W*H) is `extract_img(P, W, H)` (41_pixel_mapper.md R142). -/
def Obligations.ExtractRefinesExtractImg : Prop :=
  ∀ (s : State) (P : PixelMap), s.width.toNat * s.height.toNat ≤ Config.bitCap →
    BlueLoaded s.image s.height.toNat (s.width.toNat * s.height.toNat) →
    (∀ x y c v, pixRead s.image x y c = some v → P x y c = v) →
    ∃ t, exec .extract s = .next t ∧ t.status = .ok ∧ HoldsBits t 0 (extractImg P s.width.toNat s.height.toNat)

/-- R163: an ENCRYPT and a later DECRYPT with pixel memory, WIDTH and HEIGHT as the ENCRYPT left them. -/
def Obligations.PipelineRoundTrip : Prop :=
  ∀ (s : State) (m : List Byte), m.length ≤ 8191 → s.msgLen.toNat = m.length → HoldsMessage s m →
    16 + 8 * m.length ≤ s.width.toNat * s.height.toNat →
    BlueLoaded s.image s.height.toNat (s.width.toNat * s.height.toNat) →
    ∃ t, exec .encrypt s = .next t ∧ t.status = .ok ∧
      ∀ u : State, u.image = t.image → u.width = t.width → u.height = t.height →
        ∃ v, exec .decrypt u = .next v ∧ v.status = .ok ∧ v.msgLen.toNat = m.length ∧ HoldsMessage v m

/-- The pipelines agree with the separate commands (42_pipeline.md R164).  The equations are of whole states, so a DECRYPT
that ends in MalformedData has logged its reads as the EXTRACT has: that is assumption 7. -/
def Obligations.PipelinesAgreeWithSeparateCommands : Prop :=
  (∀ s t, exec .encode s = .next t → t.status ≠ .ok → exec .encrypt s = .next t) ∧
  (∀ s t u, exec .encode s = .next t → t.status = .ok → exec .embed t = .next u →
    exec .encrypt s = .next { u with bits := s.bits, bitLen := s.bitLen }) ∧
  (∀ s t u, s.width.toNat * s.height.toNat ≤ Config.bitCap → exec .extract s = .next t → exec .decode t = .next u →
    exec .decrypt s = .next { u with bits := s.bits, bitLen := s.bitLen }) ∧
  (∀ s, Config.bitCap < s.width.toNat * s.height.toNat →
    exec .extract s = .next { s with status := .capacityExceeded } ∧
    ∀ t, exec .decrypt s = .next t → t.status ≠ .capacityExceeded) ∧
  (∀ s k, 8 * s.msgLen.toNat < 65536 → k < s.msgLen.toNat → Memory.read s.msg k = none →
    s.width.toNat * s.height.toNat < 16 + 8 * s.msgLen.toNat →
    exec .encode s = .fault .unwrittenRead ∧ exec .encrypt s = .next { s with status := .imageTooSmall })

/-- R160: ENCRYPT and DECRYPT neither read nor write BITBUF or BIT_LEN, and `BIT_CAP` does not limit them. -/
def Obligations.PipelinesIgnoreBitbuf : Prop :=
  ∀ (i : Instr) (s : State) (b : Memory Bool) (n : Word), i = .encrypt ∨ i = .decrypt →
    (∀ t, exec i s = .next t → t.bits = s.bits ∧ t.bitLen = s.bitLen ∧ t.status ≠ .capacityExceeded ∧
      exec i { s with bits := b, bitLen := n } = .next { t with bits := b, bitLen := n }) ∧
    (∀ f, exec i s = .fault f → exec i { s with bits := b, bitLen := n } = .fault f)

/-! ### The pixel port -/

/-- EMBED's port accesses, in traversal order: one PixRead for each bit, then a PixWrite only when `sub` changes the value
(41_pixel_mapper.md R143).  `V i` and `B i` are the blue value and the bit at position `i`. -/
def Obligations.EmbedPortOrder : Prop :=
  ∀ (s t : State) (V : Nat → Byte) (B : Nat → Bool), exec .embed s = .next t → t.status = .ok →
    (∀ i, i < s.bitLen.toNat → Memory.read s.bits i = some (B i) ∧
      pixRead s.image (pixelOf i s.height.toNat).1 (pixelOf i s.height.toNat).2 .blue = some (V i)) →
    t.portLog = s.portLog ++ (List.range s.bitLen.toNat).flatMap fun i =>
      PortAccess.read (pixelOf i s.height.toNat).1 (pixelOf i s.height.toNat).2 .blue (V i) ::
        if subParity (V i) (B i) = V i then []
        else [PortAccess.write (pixelOf i s.height.toNat).1 (pixelOf i s.height.toNat).2 .blue (subParity (V i) (B i))]

/-- R144: EXTRACT performs exactly `W * H` PixReads, one per pixel, in traversal order, and no PixWrite. -/
def Obligations.ExtractPortOrder : Prop :=
  ∀ (s t : State) (V : Nat → Byte), exec .extract s = .next t → t.status = .ok →
    (∀ i, i < s.width.toNat * s.height.toNat →
      pixRead s.image (pixelOf i s.height.toNat).1 (pixelOf i s.height.toNat).2 .blue = some (V i)) →
    t.portLog = s.portLog ++ (List.range (s.width.toNat * s.height.toNat)).map fun i =>
      PortAccess.read (pixelOf i s.height.toNat).1 (pixelOf i s.height.toNat).2 .blue (V i)

/-- DECRYPT makes exactly `W * H` PixReads, one per pixel in traversal order, and no PixWrite, whatever `BIT_CAP` is
(42_pipeline.md R162, 92_eei_decisions.md D23).  That the observer's log holds them also after MalformedData is
assumption 7. -/
def Obligations.DecryptPortOrder : Prop :=
  ∀ (s t : State) (V : Nat → Byte), exec .decrypt s = .next t →
    (∀ i, i < s.width.toNat * s.height.toNat →
      pixRead s.image (pixelOf i s.height.toNat).1 (pixelOf i s.height.toNat).2 .blue = some (V i)) →
    t.portLog = s.portLog ++ (List.range (s.width.toNat * s.height.toNat)).map fun i =>
      PortAccess.read (pixelOf i s.height.toNat).1 (pixelOf i s.height.toNat).2 .blue (V i)

/-! ### Errors and faults -/

/-- R182: when CapacityExceeded is raised, that nothing else raises it, and that it leaves all but STATUS as it was. -/
def Obligations.CapacityExceededExactlyWhen : Prop :=
  ∀ (i : Instr) (s : State),
    ((((i = .decode ∨ i = .embed) ∧ Config.bitCap < s.bitLen.toNat) ∨
        (i = .extract ∧ Config.bitCap < s.width.toNat * s.height.toNat)) →
      exec i s = .next { s with status := .capacityExceeded }) ∧
    (∀ t, exec i s = .next t → t.status = .capacityExceeded →
      ((i = .decode ∨ i = .embed) ∧ Config.bitCap < s.bitLen.toNat) ∨
        (i = .extract ∧ Config.bitCap < s.width.toNat * s.height.toNat))

/-- R184: when MessageTooLong is raised, that nothing else raises it, and that it leaves all but STATUS as it was. -/
def Obligations.MessageTooLongExactlyWhen : Prop :=
  ∀ (i : Instr) (s : State),
    ((i = .encode ∨ i = .encrypt) ∧ 65536 ≤ 8 * s.msgLen.toNat →
      exec i s = .next { s with status := .messageTooLong }) ∧
    (∀ t, exec i s = .next t → t.status = .messageTooLong →
      (i = .encode ∨ i = .encrypt) ∧ 65536 ≤ 8 * s.msgLen.toNat)

/-- ImageTooSmall is raised by EMBED and ENCRYPT, after the tests that come before it (60_exceptions.md R185, R189), and
by nothing else; it leaves all but STATUS as it was. -/
def Obligations.ImageTooSmallExactlyWhen : Prop :=
  ∀ (i : Instr) (s : State),
    (((i = .embed ∧ s.bitLen.toNat ≤ Config.bitCap ∧ s.width.toNat * s.height.toNat < s.bitLen.toNat) ∨
        (i = .encrypt ∧ 8 * s.msgLen.toNat < 65536 ∧ s.width.toNat * s.height.toNat < 16 + 8 * s.msgLen.toNat)) →
      exec i s = .next { s with status := .imageTooSmall }) ∧
    (∀ t, exec i s = .next t → t.status = .imageTooSmall →
      (i = .embed ∧ s.bitLen.toNat ≤ Config.bitCap ∧ s.width.toNat * s.height.toNat < s.bitLen.toNat) ∨
        (i = .encrypt ∧ 8 * s.msgLen.toNat < 65536 ∧ s.width.toNat * s.height.toNat < 16 + 8 * s.msgLen.toNat))

/-- DECODE raises MalformedData for the three causes of 60_exceptions.md R186, on the BITBUF bits the command reads, and
for nothing else; it leaves all but STATUS as it was. -/
def Obligations.DecodeMalformedExactlyWhen : Prop :=
  ∀ (s : State) (p : List Bool), s.bitLen.toNat ≤ Config.bitCap → p.length = 16 →
    (16 ≤ s.bitLen.toNat → HoldsBits s 0 p) →
    ((s.bitLen.toNat < 16 ∨ bitsToU16 p % 8 ≠ 0 ∨ s.bitLen.toNat - 16 < bitsToU16 p) →
      exec .decode s = .next { s with status := .malformedData }) ∧
    (∀ t, exec .decode s = .next t → t.status = .malformedData →
      s.bitLen.toNat < 16 ∨ bitsToU16 p % 8 ≠ 0 ∨ s.bitLen.toNat - 16 < bitsToU16 p)

/-- DECRYPT raises MalformedData for the three causes of 60_exceptions.md R186, on the bits of the whole loaded image, and
for nothing else; it leaves all but STATUS as it was, and an observer of the port has seen its reads (assumption 7). -/
def Obligations.DecryptMalformedExactlyWhen : Prop :=
  ∀ (s : State) (b : List Bool), b.length = s.width.toNat * s.height.toNat →
    (∀ i, i < b.length →
      (pixRead s.image (pixelOf i s.height.toNat).1 (pixelOf i s.height.toNat).2 .blue).map parity = b[i]?) →
    ((b.length < 16 ∨ bitsToU16 (b.take 16) % 8 ≠ 0 ∨ b.length - 16 < bitsToU16 (b.take 16)) →
      ∃ t, exec .decrypt s = .next t ∧ t = { s with status := .malformedData, portLog := t.portLog }) ∧
    (∀ t, exec .decrypt s = .next t → t.status = .malformedData →
      b.length < 16 ∨ bitsToU16 (b.take 16) % 8 ≠ 0 ∨ b.length - 16 < bitsToU16 (b.take 16))

/-- When a command faults: the reads of an unwritten location, after the tests that come before them
(10_state.md R38, 60_exceptions.md R189, R200). -/
def Obligations.UnwrittenReadsFault : Prop :=
  ∀ (s : State) (k : Nat),
    (8 * s.msgLen.toNat < 65536 → k < s.msgLen.toNat → Memory.read s.msg k = none →
      exec .encode s = .fault .unwrittenRead ∧
      (16 + 8 * s.msgLen.toNat ≤ s.width.toNat * s.height.toNat → exec .encrypt s = .fault .unwrittenRead)) ∧
    (16 ≤ s.bitLen.toNat → s.bitLen.toNat ≤ Config.bitCap → k < 16 → Memory.read s.bits k = none →
      exec .decode s = .fault .unwrittenRead) ∧
    (∀ p, p.length = 16 → HoldsBits s 0 p → s.bitLen.toNat ≤ Config.bitCap → bitsToU16 p % 8 = 0 →
      16 + bitsToU16 p ≤ s.bitLen.toNat → k < bitsToU16 p → Memory.read s.bits (16 + k) = none →
      exec .decode s = .fault .unwrittenRead) ∧
    (s.bitLen.toNat ≤ Config.bitCap → s.bitLen.toNat ≤ s.width.toNat * s.height.toNat → k < s.bitLen.toNat →
      (Memory.read s.bits k = none ∨
        pixRead s.image (pixelOf k s.height.toNat).1 (pixelOf k s.height.toNat).2 .blue = none) →
      exec .embed s = .fault .unwrittenRead) ∧
    (k < s.width.toNat * s.height.toNat →
      pixRead s.image (pixelOf k s.height.toNat).1 (pixelOf k s.height.toNat).2 .blue = none →
      exec .decrypt s = .fault .unwrittenRead ∧
      (s.width.toNat * s.height.toNat ≤ Config.bitCap → exec .extract s = .fault .unwrittenRead) ∧
      (8 * s.msgLen.toNat < 65536 → 16 + 8 * s.msgLen.toNat ≤ s.width.toNat * s.height.toNat →
        k < 16 + 8 * s.msgLen.toNat → exec .encrypt s = .fault .unwrittenRead))

/-- WIDTH or HEIGHT larger than the image makes the commands that read the whole grid fault (70_reset_and_hazards.md R222). -/
def Obligations.OversizedDimensionsFault : Prop :=
  ∀ s : State, 0 < s.width.toNat → 0 < s.height.toNat →
    (s.image.width.toNat < s.width.toNat ∨ s.image.height.toNat < s.height.toNat) →
    exec .decrypt s = .fault .unwrittenRead ∧
    (s.width.toNat * s.height.toNat ≤ Config.bitCap → exec .extract s = .fault .unwrittenRead)

/-- A failed command, an illegal word among them, changes STATUS.CODE and nothing else (60_exceptions.md R181, R183); of the
pixel port an observer may have seen DECRYPT's reads (assumption 7). -/
def Obligations.FailureChangesOnlyStatus : Prop :=
  ∀ (w : Word) (s t : State), runCommand w s = .next t → t.status ≠ .ok →
    t = { s with status := t.status, portLog := t.portLog } ∧ (decode w ≠ .ok .decrypt → t.portLog = s.portLog)

/-- The numbers of the codes, and which command can raise which (60_exceptions.md R180). -/
def Obligations.StatusCodesAndWhoRaisesThem : Prop :=
  ([StatusCode.ok, .noMessageProvided, .messageTooLong, .imageTooSmall, .malformedData, .ioFailure, .illegalCommand,
    .capacityExceeded].map fun c => (statusNumber c).toNat) = [0, 1, 2, 3, 4, 5, 6, 7] ∧
  (∀ (i : Instr) (s t : State), exec i s = .next t →
    (t.status = .ok ∨ (t.status = .messageTooLong ∧ (i = .encode ∨ i = .encrypt)) ∨
      (t.status = .imageTooSmall ∧ (i = .embed ∨ i = .encrypt)) ∨
      (t.status = .malformedData ∧ (i = .decode ∨ i = .decrypt)) ∨
      (t.status = .capacityExceeded ∧ (i = .decode ∨ i = .embed ∨ i = .extract)))) ∧
  (∀ (w : Word) (s : State), (∀ i, decode w ≠ .ok i) → runCommand w s = .next { s with status := .illegalCommand })

/-- No command's behaviour depends on an earlier command's result (10_state.md R36). -/
def Obligations.NoCommandReadsStatus : Prop :=
  ∀ (i : Instr) (s : State) (c : StatusCode), exec i { s with status := c } = exec i s

/-- What each command leaves unchanged (30_encoding.md R83, 92_eei_decisions.md D31, 70_reset_and_hazards.md R224): every
field not named, and of each buffer and of pixel memory every location outside those the command writes.  A failed
command writes none of them. -/
def Obligations.CommandWriteSets : Prop :=
  ∀ s t : State,
    (∀ i, exec i s = .next t → t.status ≠ .ok → t = { s with status := t.status, portLog := t.portLog }) ∧
    (exec .encode s = .next t →
      t = { s with status := t.status, bits := t.bits, bitLen := t.bitLen } ∧
      ∀ i, 16 + 8 * s.msgLen.toNat ≤ i → Memory.read t.bits i = Memory.read s.bits i) ∧
    (exec .decode s = .next t →
      t = { s with status := t.status, msg := t.msg, msgLen := t.msgLen } ∧
      ∀ p, p.length = 16 → HoldsBits s 0 p →
        ∀ k, bitsToU16 p / 8 ≤ k → Memory.read t.msg k = Memory.read s.msg k) ∧
    (∀ v b, exec (.sub v b) s = .next t → t = { s with status := .ok, subResult := t.subResult }) ∧
    (exec .embed s = .next t →
      t = { s with status := t.status, image := t.image, portLog := t.portLog } ∧
      t.image.width = s.image.width ∧ t.image.height = s.image.height ∧
      ∀ x y c, (c = .blue → ∀ i, i < s.bitLen.toNat → pixelOf i s.height.toNat ≠ (x, y)) →
        pixRead t.image x y c = pixRead s.image x y c) ∧
    (exec .extract s = .next t →
      t = { s with status := t.status, bits := t.bits, bitLen := t.bitLen, portLog := t.portLog } ∧
      ∀ i, s.width.toNat * s.height.toNat ≤ i → Memory.read t.bits i = Memory.read s.bits i) ∧
    (exec .encrypt s = .next t →
      t = { s with status := t.status, image := t.image, portLog := t.portLog } ∧
      t.image.width = s.image.width ∧ t.image.height = s.image.height ∧
      ∀ x y c, (c = .blue → ∀ i, i < 16 + 8 * s.msgLen.toNat → pixelOf i s.height.toNat ≠ (x, y)) →
        pixRead t.image x y c = pixRead s.image x y c) ∧
    (exec .decrypt s = .next t →
      t = { s with status := t.status, msg := t.msg, msgLen := t.msgLen, portLog := t.portLog } ∧
      ∀ p, p.length = 16 →
        (∀ j, j < 16 →
          (pixRead s.image (pixelOf j s.height.toNat).1 (pixelOf j s.height.toNat).2 .blue).map parity = p[j]?) →
        ∀ k, bitsToU16 p / 8 ≤ k → Memory.read t.msg k = Memory.read s.msg k)

/-! ### The host register port -/

/-- Host reads change nothing but what the host has been told, and repeat; host writes other than of CMD and PixWrite are
idempotent; a CMD write starts a command every time (20_memory.md R56).  That a read of an unwritten location repeats is
the model's choice (assumption 4). -/
def Obligations.HostReadsRepeatAndWritesAreIdempotent : Prop :=
  (∀ (s t : State) (o : Word) (n : Nat), runEvent (.read o n) s = .next t →
    ∃ v, t = { s with replies := s.replies ++ [v] } ∧
      runEvent (.read o n) t = .next { t with replies := t.replies ++ [v] }) ∧
  (∀ (s t : State) (o : Word) (n : Nat) (v : Word), o ≠ 0#32 → runEvent (.write o n v) s = .next t →
    runEvent (.write o n v) t = .next t) ∧
  (∀ (p : PixelMemory) (x y : Nat) (c : Channel) (v : Byte),
    pixWrite (pixWrite p x y c v) x y c v = pixWrite p x y c v) ∧
  (∀ (s : State) (w : Word), runEvent (.write 0#32 4 w) s = runCommand w s)

/-- R53 and R54: what the register window and the byte windows accept, and that every other access is refused. -/
def Obligations.UnsupportedAccessesAreRefused : Prop :=
  ∀ (s : State) (o : Word) (n : Nat) (v : Word), 1 ≤ n →
    (o.toNat < 0x1000 →
      ((n = 4 ∧ o.toNat % 4 = 0) → (∃ t, runEvent (.read o n) s = .next t) ∧
        (o ≠ 0#32 → ∃ t, runEvent (.write o n v) s = .next t)) ∧
      (¬(n = 4 ∧ o.toNat % 4 = 0) → runEvent (.read o n) s = .refused .unsupportedAccess ∧
        runEvent (.write o n v) s = .refused .unsupportedAccess)) ∧
    ((0x1000 ≤ o.toNat ∧ o.toNat ≤ 0x2FFE ∨
        0x10000000 ≤ o.toNat ∧ o.toNat < 0x10000000 + Config.bitCap / 8) →
      (n = 1 → (∃ t, runEvent (.read o n) s = .next t) ∧ ∃ t, runEvent (.write o n v) s = .next t) ∧
      (n ≠ 1 → runEvent (.read o n) s = .refused .unsupportedAccess ∧
        runEvent (.write o n v) s = .refused .unsupportedAccess))

/-- Reserved offsets read 0 and ignore writes: those of the register window (10_state.md R34), and reserved host space
at any width (20_memory.md R63).  That an access must lie in reserved space whole is the model's choice (assumption 9). -/
def Obligations.ReservedOffsetsReadZeroAndIgnoreWrites : Prop :=
  ∀ (s : State) (o : Word) (n : Nat) (v : Word),
    ((0x020 ≤ o.toNat ∧ o.toNat < 0x1000 ∧ o.toNat % 4 = 0 ∧ n = 4) ∨
      (1 ≤ n ∧ 0x2FFF ≤ o.toNat ∧ o.toNat + n ≤ 0x10000000) ∨
      (1 ≤ n ∧ 0x10000000 + Config.bitCap / 8 ≤ o.toNat ∧ o.toNat + n ≤ 2 ^ 32)) →
    runEvent (.read o n) s = .next { s with replies := s.replies ++ [0#32] } ∧ runEvent (.write o n v) s = .next s

/-- What the host reads back after writing each register (10_state.md section 3). -/
def Obligations.RegisterWriteThenRead : Prop :=
  ∀ (s : State) (v : Word),
    runScript s [wr .msgLen v, rd .msgLen] = .next { s with msgLen := v, replies := s.replies ++ [v] } ∧
    runScript s [wr .bitLen v, rd .bitLen] = .next { s with bitLen := v, replies := s.replies ++ [v] } ∧
    runScript s [wr .width v, rd .width] =
      .next { s with width := v.setWidth 16, replies := s.replies ++ [v &&& 0xFFFF#32] } ∧
    runScript s [wr .height v, rd .height] =
      .next { s with height := v.setWidth 16, replies := s.replies ++ [v &&& 0xFFFF#32] } ∧
    runScript s [wr .status v, rd .status] =
      .next { s with replies := s.replies ++ [BitVec.ofNat 32 (statusNumber s.status).toNat] } ∧
    runScript s [wr .subResult v, rd .subResult] =
      .next { s with replies := s.replies ++ [BitVec.ofNat 32 s.subResult.toNat] } ∧
    runScript s [wr .bitcap v, rd .bitcap] =
      .next { s with replies := s.replies ++ [BitVec.ofNat 32 Config.bitCap] }

/-- R61: the message-buffer window; and R227: its write does not change MSG_LEN. -/
def Obligations.MessageWindow : Prop :=
  ∀ (s : State) (k : Nat) (v : Byte), k ≤ 8190 →
    (∃ t, runEvent (wrbMsg k v) s = .next t ∧ Memory.read t.msg k = some v ∧
      (∀ j, j ≠ k → Memory.read t.msg j = Memory.read s.msg j) ∧ t = { s with msg := t.msg }) ∧
    (Memory.read s.msg k = some v →
      runEvent (rdbMsg k) s = .next { s with replies := s.replies ++ [BitVec.ofNat 32 v.toNat] }) ∧
    (Memory.read s.msg k = none → ∃ x : Byte,
      runEvent (rdbMsg k) s = .next { s with replies := s.replies ++ [BitVec.ofNat 32 x.toNat] })

/-- R62: the bit-buffer window and its packing, bit `7 - j` of host byte `k` being position `8k + j`, so that the host sees
the bytes of an encoded message from byte 2 on.  A write of the window does not change BIT_LEN
(70_reset_and_hazards.md R226). -/
def Obligations.BitWindow : Prop :=
  (∀ (s : State) (k : Nat) (v : Byte), k < Config.bitCap / 8 →
    (∃ t, runEvent (wrbBits k v) s = .next t ∧
      (∀ j, j < 8 → Memory.read t.bits (8 * k + j) = some (v.getLsbD (7 - j))) ∧
      (∀ i, i < 8 * k ∨ 8 * k + 8 ≤ i → Memory.read t.bits i = Memory.read s.bits i) ∧ t = { s with bits := t.bits }) ∧
    (∃ x : Byte, runEvent (rdbBits k) s = .next { s with replies := s.replies ++ [BitVec.ofNat 32 x.toNat] } ∧
      ∀ j b, j < 8 → Memory.read s.bits (8 * k + j) = some b → x.getLsbD (7 - j) = b)) ∧
  (∀ (s : State) (m : List Byte), s.msgLen.toNat = m.length → 8 * m.length < 65536 → HoldsMessage s m →
    ∃ t, exec .encode s = .next t ∧ ∀ k x, m[k]? = some x →
      runEvent (rdbBits (2 + k)) t = .next { t with replies := t.replies ++ [BitVec.ofNat 32 x.toNat] })

/-- Offsets are relative to `BLOCK_BASE`, and the whole 2^32-byte range is the block's (20_memory.md R51). -/
def Obligations.HostAddressesAreBasePlusOffset : Prop :=
  (∀ o : Word, offsetOf (Config.blockBase + o.toNat) = some o) ∧
  (∀ a, a < Config.blockBase ∨ Config.blockBase + 2 ^ 32 ≤ a → offsetOf a = none)

/-- `loadmsg` leaves MSG and MSG_LEN as it says (30_encoding.md R89). -/
def Obligations.LoadmsgLoadsTheMessage : Prop :=
  ∀ (s : State) (m : List Byte), m.length ≤ 8191 →
    ∃ t, runScript s (loadmsg m) = .next t ∧ t.msgLen.toNat = m.length ∧ HoldsMessage t m ∧
      (∀ k, m.length ≤ k → Memory.read t.msg k = Memory.read s.msg k) ∧
      t = { s with msg := t.msg, msgLen := t.msgLen }

/-- `loadbits` leaves BITBUF and BIT_LEN as it says, its last byte padded with zeros (30_encoding.md R89). -/
def Obligations.LoadbitsLoadsTheBits : Prop :=
  ∀ (s : State) (b : List Bool), b.length ≤ Config.bitCap →
    ∃ t, runScript s (loadbits b) = .next t ∧ t.bitLen.toNat = b.length ∧ HoldsBits t 0 b ∧
      (∀ i, b.length ≤ i → i < 8 * ((b.length + 7) / 8) → Memory.read t.bits i = some false) ∧
      (∀ i, 8 * ((b.length + 7) / 8) ≤ i → Memory.read t.bits i = Memory.read s.bits i) ∧
      t = { s with bits := t.bits, bitLen := t.bitLen }

/-! ### Whole-machine rules -/

/-- R39: what reset leaves, from any state, in the block's registers and buffers and as the host reads them.  Pixel memory
and the host stay as they are (70_reset_and_hazards.md R210). -/
def Obligations.ResetLeavesResetValues : Prop :=
  ∀ s : State, ∃ t, runEvent .reset s = .next t ∧ t.status = .ok ∧ t.msgLen = 0#32 ∧ t.bitLen = 0#32 ∧
    t.width = 0#16 ∧ t.height = 0#16 ∧ t.subResult = 0#8 ∧ (∀ k, Memory.read t.msg k = none) ∧
    (∀ i, Memory.read t.bits i = none) ∧ t.image = s.image ∧ t.script = s.script ∧ t.replies = s.replies ∧
    (∀ o : Word, 0x020 ≤ o.toNat → o.toNat < 0x1000 → o.toNat % 4 = 0 →
      runEvent (.read o 4) t = .next { t with replies := t.replies ++ [0#32] }) ∧
    (∀ r, r ≠ .bitcap → runEvent (rd r) t = .next { t with replies := t.replies ++ [0#32] }) ∧
    runEvent (rd .bitcap) t = .next { t with replies := t.replies ++ [BitVec.ofNat 32 Config.bitCap] }

/-- The invariant holds right after reset (10_state.md R39). -/
def Obligations.InvariantAtReset : Prop := State.reset.Inv

/-- Every step keeps the invariant: canonical memories inside their bounds (10_state.md R27, R29, R35), and a STATUS code
the block writes (60_exceptions.md R180, R187). -/
def Obligations.EveryStepKeepsTheInvariant : Prop := ∀ s t : State, s.Inv → step s = .next t → t.Inv

/-- Only reset makes locations unwritten again (70_reset_and_hazards.md R212). -/
def Obligations.OnlyResetMakesUnwritten : Prop :=
  ∀ s t : State, step s = .next t → s.script.head? ≠ some .reset →
    (∀ k, (Memory.read s.msg k).isSome → (Memory.read t.msg k).isSome) ∧
    (∀ i, (Memory.read s.bits i).isSome → (Memory.read t.bits i).isSome)

/-- STATUS and SUB_RESULT change only by a CMD write or by reset: the block never acts on its own (10_state.md R20). -/
def Obligations.OnlyCommandsWriteStatus : Prop :=
  ∀ s t : State, step s = .next t → s.script.head? ≠ some .reset →
    (∀ n w, s.script.head? ≠ some (.write 0#32 n w)) → t.status = s.status ∧ t.subResult = s.subResult

/-- Whatever the block does, red, green and alpha stay, a loaded blue value stays or is incremented modulo 256, and
nothing becomes loaded or unloaded; only the host's own loading does more (41_pixel_mapper.md R131, R136). -/
def Obligations.BlockOnlyIncrementsBlue : Prop :=
  ∀ s t : State, step s = .next t → (∀ w h, s.script.head? ≠ some (.newImage w h)) →
    (∀ x y c v, s.script.head? ≠ some (.loadPixel x y c v)) →
    ∀ x y c, (c ≠ .blue → pixRead t.image x y c = pixRead s.image x y c) ∧
      (pixRead t.image x y c = pixRead s.image x y c ∨
        pixRead t.image x y c = (pixRead s.image x y c).map (· + 1#8))
end

