-- ==== Sys2Proof/Laws/Config.lean ====
section
/-! SUPPORT. The bounds of the open parameters (00_scope.md R5), and the two tests of them as plain comparisons. -/

namespace Sys2Proof.Machine

theorem bitCap_eq : Config.bitCap = 8 * Config.bitCapBytes := rfl

theorem bitCapBytes_lower : 8193 ≤ Config.bitCapBytes := by unfold Config.bitCapBytes; omega

theorem bitCapBytes_upper : Config.bitCapBytes ≤ 2 ^ 28 := by
  unfold Config.bitCapBytes
  have := Nat.mod_lt Config.bitCapChoice (show 0 < 268427264 by omega)
  omega

theorem bitCap_lower : 65544 ≤ Config.bitCap := by
  have := bitCapBytes_lower; rw [bitCap_eq]; omega

theorem bitCap_upper : Config.bitCap ≤ 2 ^ 31 := by
  have := bitCapBytes_upper; rw [bitCap_eq]; omega

theorem bitCap_div : Config.bitCap / 8 = Config.bitCapBytes := by rw [bitCap_eq]; omega

theorem capacityExceeded_iff (n : Nat) : capacityExceeded n = true ↔ Config.bitCap < n := by
  have := bitCap_lower
  simp only [capacityExceeded, Bool.and_eq_true, decide_eq_true_eq]; omega

theorem hasBitByte_iff (k : Nat) : hasBitByte k = true ↔ k < Config.bitCapBytes := by
  have := bitCapBytes_lower
  simp only [hasBitByte, Bool.or_eq_true, decide_eq_true_eq]; omega

@[simp] theorem messageTooLong_iff (n : Nat) : messageTooLong n = true ↔ 65536 ≤ 8 * n := by simp [messageTooLong]

@[simp] theorem imageTooSmall_iff (n c : Nat) : imageTooSmall n c = true ↔ c < n := by simp [imageTooSmall]

@[simp] theorem prefixMissing_iff (n : Nat) : prefixMissing n = true ↔ n < 16 := by simp [prefixMissing]

@[simp] theorem prefixMalformed_iff (n L : Nat) : prefixMalformed n L = true ↔ L % 8 ≠ 0 ∨ n - 16 < L := by
  simp [prefixMalformed]

end Sys2Proof.Machine
end

