-- ==== Sys2Proof/Laws/Codec.lean ====
section
/-! SUPPORT. Lengths and single steps of the Bit Codec's functions. -/

namespace Sys2Proof.Machine

@[simp] theorem byteBits_length (x : Byte) : (byteBits x).length = 8 := rfl

@[simp] theorem bytesToBits_nil : bytesToBits [] = [] := rfl

@[simp] theorem bytesToBits_cons (x : Byte) (m : List Byte) : bytesToBits (x :: m) = byteBits x ++ bytesToBits m := rfl

@[simp] theorem bytesToBits_length (m : List Byte) : (bytesToBits m).length = 8 * m.length := by
  induction m with
  | nil => rfl
  | cons x m ih => rw [bytesToBits_cons, List.length_append, ih, byteBits_length, List.length_cons]; omega

@[simp] theorem u16ToBits_length (L : Nat) : (u16ToBits L).length = 16 := by simp [u16ToBits]

/-- A bit of a byte, by its position from the most significant one. -/
theorem byteBits_getElem? (x : Byte) {j : Nat} (h : j ≤ 7) : (byteBits x)[j]? = some (x.getLsbD (7 - j)) := by
  rcases j with _ | _ | _ | _ | _ | _ | _ | _ | j <;> first | rfl | omega

/-- Packing the bits of a byte gives the byte back. -/
theorem packByte_byteBits (x : Byte) : packByte (byteBits x) = x := by
  revert x; decide

/-- The bits of a packed byte are the bits that were packed. -/
theorem byteBits_packByte {p : List Bool} (h : p.length = 8) : byteBits (packByte p) = p := by
  match p, h with
  | [a, b, c, d, e, f, g, i], _ => revert a b c d e f g i; decide

/-- Packing eight bits puts bit `j` at place `7 - j` of the byte. -/
theorem packByte_getLsbD {p : List Bool} (h : p.length = 8) {j : Nat} (hj : j ≤ 7) :
    p[j]? = some ((packByte p).getLsbD (7 - j)) := by
  rw [← byteBits_getElem? _ hj, byteBits_packByte h]

/-- The value of bits read after others. -/
theorem bitsValue_eq (p : List Bool) : ∀ acc : Nat, bitsValue acc p = acc * 2 ^ p.length + bitsValue 0 p := by
  induction p with
  | nil => intro acc; simp [bitsValue]
  | cons b p ih =>
    intro acc
    simp only [bitsValue, List.length_cons]
    rw [ih (2 * acc + b.toNat), ih (2 * 0 + b.toNat), Nat.pow_succ]
    ring

/-- The value of `n` bits is below `2^n`. -/
theorem bitsValue_lt (p : List Bool) : bitsValue 0 p < 2 ^ p.length := by
  induction p with
  | nil => simp [bitsValue]
  | cons b p ih =>
    simp only [bitsValue, List.length_cons]
    rw [bitsValue_eq, Nat.pow_succ]
    cases b <;> simp <;> omega

theorem bitsToU16_lt {p : List Bool} (h : p.length = 16) : bitsToU16 p < 65536 := by
  have := bitsValue_lt p; rw [h] at this; exact this

/-- What `encode` answers. -/
theorem codecEncode_eq_ok {m : List Byte} {b : List Bool} :
    codecEncode m = .ok b ↔ 8 * m.length < 65536 ∧ b = u16ToBits (8 * m.length) ++ bytesToBits m := by
  unfold codecEncode
  by_cases h : 65536 ≤ 8 * m.length
  · rw [if_pos ((messageTooLong_iff _).2 h)]
    exact ⟨nofun, fun h' => absurd h'.1 (by omega)⟩
  · rw [if_neg (mt (messageTooLong_iff _).1 h), Except.ok.injEq]
    exact ⟨fun h' => ⟨by omega, h'.symm⟩, fun h' => h'.2.symm⟩

/-- The causes of MalformedData on a whole sequence. -/
theorem codecDecode_malformed {s : List Bool}
    (h : s.length < 16 ∨ bitsToU16 (s.take 16) % 8 ≠ 0 ∨ s.length - 16 < bitsToU16 (s.take 16)) :
    codecDecode s = .error .malformedData := by
  unfold codecDecode
  split
  · rfl
  · next h1 => rw [if_pos ((prefixMalformed_iff _ _).2 (h.resolve_left (mt (prefixMissing_iff _).2 h1)))]

/-- What `decode` answers where none of them holds. -/
theorem codecDecode_sound {s : List Bool} (h : 16 ≤ s.length) (h8 : bitsToU16 (s.take 16) % 8 = 0)
    (hL : 16 + bitsToU16 (s.take 16) ≤ s.length) :
    codecDecode s = .ok (bitsToBytes ((s.drop 16).take (bitsToU16 (s.take 16)))) := by
  unfold codecDecode
  rw [if_neg (by rw [prefixMissing_iff]; omega), if_neg (by rw [prefixMalformed_iff]; omega)]

/-- What is behind an answer of `decode`. -/
theorem codecDecode_eq_ok {s : List Bool} {m : List Byte} :
    codecDecode s = .ok m ↔ 16 ≤ s.length ∧ bitsToU16 (s.take 16) % 8 = 0 ∧ 16 + bitsToU16 (s.take 16) ≤ s.length ∧
      m = bitsToBytes ((s.drop 16).take (bitsToU16 (s.take 16))) := by
  by_cases h : s.length < 16 ∨ bitsToU16 (s.take 16) % 8 ≠ 0 ∨ s.length - 16 < bitsToU16 (s.take 16)
  · rw [codecDecode_malformed h]
    exact ⟨nofun, fun h' => absurd h'.1 (by omega)⟩
  · rw [codecDecode_sound (by omega) (by omega) (by omega), Except.ok.injEq]
    exact ⟨fun h' => ⟨by omega, by omega, by omega, h'.symm⟩, fun h' => h'.2.2.2.symm⟩

/-- `decode` fails only with MalformedData. -/
theorem codecDecode_eq_error {s : List Bool} {c : StatusCode} :
    codecDecode s = .error c ↔ c = .malformedData ∧
      (s.length < 16 ∨ bitsToU16 (s.take 16) % 8 ≠ 0 ∨ s.length - 16 < bitsToU16 (s.take 16)) := by
  by_cases h : s.length < 16 ∨ bitsToU16 (s.take 16) % 8 ≠ 0 ∨ s.length - 16 < bitsToU16 (s.take 16)
  · rw [codecDecode_malformed h, Except.error.injEq]
    exact ⟨fun h' => ⟨h'.symm, h⟩, fun h' => h'.1.symm⟩
  · rw [codecDecode_sound (by omega) (by omega) (by omega)]
    exact ⟨nofun, fun h' => absurd h'.2 h⟩

/-- Eight bits at a time. -/
theorem bitsToBytes_append {p : List Bool} (h : p.length = 8) (s : List Bool) :
    bitsToBytes (p ++ s) = packByte p :: bitsToBytes s := by
  match p, h with
  | [_, _, _, _, _, _, _, _], _ => rfl

/-- A sequence of whole bytes, taken apart. -/
theorem bits_byte_induction {P : List Bool → Prop} (h0 : P [])
    (h8 : ∀ p s : List Bool, p.length = 8 → s.length % 8 = 0 → P s → P (p ++ s)) :
    ∀ s : List Bool, s.length % 8 = 0 → P s := by
  intro s
  generalize hn : s.length / 8 = n
  induction n generalizing s with
  | zero =>
    intro h
    have : s = [] := List.eq_nil_of_length_eq_zero (by omega)
    subst this; exact h0
  | succ n ih =>
    intro h
    rw [← List.take_append_drop 8 s]
    refine h8 _ _ (by rw [List.length_take]; omega) (by rw [List.length_drop]; omega)
      (ih _ (by rw [List.length_drop]; omega) (by rw [List.length_drop]; omega))

end Sys2Proof.Machine
end

