-- ==== Sys2Proof/Laws/Memory.lean ====
section
/-! SUPPORT. What the operations over memories do, once: reads after writes, the canonical form, and bounds. -/

namespace Sys2Proof.Machine

variable {α : Type}

@[simp] theorem Memory.read_nil (k : Nat) : Memory.read ([] : Memory α) k = none := rfl

@[simp] theorem Memory.write_nil (k : Nat) (v : α) : Memory.write [] k v = [(k, v)] := rfl

@[simp] theorem Memory.writeFrom_nil (m : Memory α) (k : Nat) : Memory.writeFrom m k [] = m := rfl

theorem Memory.writeFrom_cons (m : Memory α) (k : Nat) (v : α) (l : List α) :
    Memory.writeFrom m k (v :: l) = Memory.writeFrom (Memory.write m k v) (k + 1) l := rfl

/-- A read after a write, whether or not the memory is in canonical form. -/
theorem Memory.read_write (m : Memory α) (k : Nat) (v : α) (j : Nat) :
    Memory.read (Memory.write m k v) j = if j = k then some v else Memory.read m j := by
  induction m with
  | nil => simp only [Memory.write, Memory.read, eq_comm]
  | cons p m ih =>
    obtain ⟨h, u⟩ := p
    rcases Nat.lt_trichotomy k h with hk | rfl | hk
    · simp only [Memory.write, if_pos hk, Memory.read, eq_comm]
    · simp only [Memory.write, Nat.lt_irrefl, if_false, if_true, Memory.read]
      by_cases hj : k = j
      · simp [hj]
      · simp [hj, Ne.symm hj]
    · simp only [Memory.write, if_neg (Nat.lt_asymm hk), if_neg (Nat.ne_of_gt hk), Memory.read, ih]
      by_cases hj : h = j
      · simp [hj, show j ≠ k by omega]
      · simp [hj]

@[simp] theorem Memory.read_write_same (m : Memory α) (k : Nat) (v : α) :
    Memory.read (Memory.write m k v) k = some v := by simp [Memory.read_write]

theorem Memory.read_write_of_ne (m : Memory α) {j k : Nat} (v : α) (h : j ≠ k) :
    Memory.read (Memory.write m k v) j = Memory.read m j := by simp [Memory.read_write, h]

/-- A read after writing a list of values. -/
theorem Memory.read_writeFrom (l : List α) : ∀ (m : Memory α) (k j : Nat),
    Memory.read (Memory.writeFrom m k l) j =
      if k ≤ j ∧ j < k + l.length then l[j - k]? else Memory.read m j := by
  induction l with
  | nil => intro m k j; rw [if_neg (by simp)]; rfl
  | cons v l ih =>
    intro m k j
    rw [Memory.writeFrom_cons, ih, Memory.read_write]
    by_cases hj : j = k
    · subst hj; simp
    · simp only [hj, if_false, List.length_cons]
      by_cases hr : k + 1 ≤ j ∧ j < k + 1 + l.length
      · rw [if_pos hr, if_pos (by omega)]
        have : j - k = (j - (k + 1)) + 1 := by omega
        rw [this, List.getElem?_cons_succ]
      · rw [if_neg hr, if_neg (by omega)]

/-- The written part of a memory reads as the list. -/
theorem Memory.read_writeFrom_inside (m : Memory α) (k : Nat) (l : List α) {i : Nat} (h : i < l.length) :
    Memory.read (Memory.writeFrom m k l) (k + i) = l[i]? := by
  rw [Memory.read_writeFrom, if_pos (by omega)]; congr 1; omega

theorem Memory.read_writeFrom_outside (m : Memory α) (k : Nat) (l : List α) {j : Nat}
    (h : j < k ∨ k + l.length ≤ j) : Memory.read (Memory.writeFrom m k l) j = Memory.read m j := by
  rw [Memory.read_writeFrom, if_neg (by omega)]

/-- Reading a range answers exactly the list of its values. -/
theorem Memory.readRange_eq_some (m : Memory α) (n : Nat) : ∀ (k : Nat) (l : List α),
    Memory.readRange m k n = some l ↔ l.length = n ∧ ∀ i, i < l.length → Memory.read m (k + i) = l[i]? := by
  induction n with
  | zero =>
    intro k l
    cases l <;> simp [Memory.readRange]
  | succ n ih =>
    intro k l
    simp only [Memory.readRange]
    cases l with
    | nil => split <;> simp
    | cons v l =>
      have hsplit : (∀ i, i < (v :: l).length → Memory.read m (k + i) = (v :: l)[i]?) ↔
          Memory.read m k = some v ∧ ∀ i, i < l.length → Memory.read m (k + 1 + i) = l[i]? := by
        constructor
        · intro h
          refine ⟨by simpa using h 0 (by simp), fun i hi => ?_⟩
          have := h (i + 1) (by simpa using hi)
          rw [List.getElem?_cons_succ] at this
          rw [← this]; congr 1; omega
        · rintro ⟨h0, h⟩ i hi
          cases i with
          | zero => simpa using h0
          | succ i =>
            rw [List.getElem?_cons_succ, ← h i (by simpa using hi)]; congr 1; omega
      rw [hsplit, List.length_cons]
      split
      · next a l' h1 h2 =>
        rw [h1]
        have := (ih (k + 1) l').1 h2
        constructor
        · intro he
          simp only [Option.some.injEq, List.cons.injEq] at he
          obtain ⟨rfl, rfl⟩ := he
          exact ⟨by omega, rfl, this.2⟩
        · rintro ⟨hl, ha, hb⟩
          have h3 := (ih (k + 1) l).2 ⟨by omega, hb⟩
          rw [h2] at h3
          simp only [Option.some.injEq] at ha h3
          simp [ha, h3]
      · next h =>
        constructor
        · intro he; cases he
        · rintro ⟨hl, ha, hb⟩
          exact (h v l ha ((ih (k + 1) l).2 ⟨by omega, hb⟩)).elim

/-- Reading a range answers nothing exactly when one of its locations is unwritten. -/
theorem Memory.readRange_eq_none (m : Memory α) (n : Nat) : ∀ k : Nat,
    Memory.readRange m k n = none ↔ ∃ i, i < n ∧ Memory.read m (k + i) = none := by
  induction n with
  | zero => intro k; simp [Memory.readRange]
  | succ n ih =>
    intro k
    simp only [Memory.readRange]
    constructor
    · intro h
      cases hv : Memory.read m k with
      | none => exact ⟨0, by omega, by simpa using hv⟩
      | some v =>
        cases hl : Memory.readRange m (k + 1) n with
        | none =>
          obtain ⟨i, hi, hr⟩ := (ih (k + 1)).1 hl
          exact ⟨i + 1, by omega, by rw [← hr]; congr 1; omega⟩
        | some l => simp [hv, hl] at h
    · rintro ⟨i, hi, hr⟩
      cases i with
      | zero => rw [Nat.add_zero] at hr; simp [hr]
      | succ i =>
        have : Memory.readRange m (k + 1) n = none :=
          (ih (k + 1)).2 ⟨i, by omega, by rw [← hr]; congr 1; omega⟩
        rw [this]; split <;> simp_all

/-! ### Writing a value again, and writes of different locations -/

theorem Memory.write_write_same (m : Memory α) (k : Nat) (u v : α) :
    Memory.write (Memory.write m k u) k v = Memory.write m k v := by
  induction m with
  | nil => simp [Memory.write]
  | cons p m ih =>
    obtain ⟨h, w⟩ := p
    by_cases h1 : k < h
    · simp [Memory.write, h1]
    · by_cases h2 : k = h
      · simp [Memory.write, h2]
      · simp [Memory.write, h1, h2, ih]

theorem Memory.write_comm_of_lt (m : Memory α) {j k : Nat} (a b : α) (h : j < k) :
    Memory.write (Memory.write m j a) k b = Memory.write (Memory.write m k b) j a := by
  have hkj : ¬ k < j := by omega
  have hne : k ≠ j := by omega
  induction m with
  | nil => simp [Memory.write, h, hkj, hne]
  | cons p m ih =>
    obtain ⟨i, w⟩ := p
    rcases Nat.lt_trichotomy j i with hj | rfl | hj
    · rcases Nat.lt_trichotomy k i with hk | rfl | hk
      · simp [Memory.write, h, hj, hk, hkj, hne]
      · simp [Memory.write, h, hkj, hne]
      · simp [Memory.write, hj, hkj, hne, Nat.lt_asymm hk, Nat.ne_of_gt hk]
    · simp [Memory.write, hkj, hne]
    · simp [Memory.write, Nat.lt_asymm hj, Nat.ne_of_gt hj, show ¬ k < i by omega, show k ≠ i by omega, ih]

/-- Writes of different locations commute. -/
theorem Memory.write_comm (m : Memory α) {j k : Nat} (a b : α) (h : j ≠ k) :
    Memory.write (Memory.write m j a) k b = Memory.write (Memory.write m k b) j a := by
  rcases Nat.lt_or_gt_of_ne h with h | h
  · exact Memory.write_comm_of_lt m a b h
  · exact (Memory.write_comm_of_lt m b a h).symm

/-- A write below a list of writes commutes with them. -/
theorem Memory.writeFrom_write (l : List α) : ∀ (m : Memory α) (k i : Nat) (v : α), i < k →
    Memory.writeFrom (Memory.write m i v) k l = Memory.write (Memory.writeFrom m k l) i v := by
  induction l with
  | nil => intros; rfl
  | cons u l ih =>
    intro m k i v h
    rw [Memory.writeFrom_cons, Memory.writeFrom_cons, Memory.write_comm _ _ _ (by omega), ih _ _ _ _ (by omega)]

/-- Writing the same list again changes nothing. -/
theorem Memory.writeFrom_writeFrom_same (l : List α) : ∀ (m : Memory α) (k : Nat),
    Memory.writeFrom (Memory.writeFrom m k l) k l = Memory.writeFrom m k l := by
  induction l with
  | nil => intros; rfl
  | cons v l ih =>
    intro m k
    rw [Memory.writeFrom_cons, Memory.writeFrom_cons, ← Memory.writeFrom_write _ _ _ _ _ (by omega),
      Memory.write_write_same, ih]

/-! ### The canonical form and bounds -/

/-- What a write may put into the list of written locations. -/
theorem Memory.mem_write {m : Memory α} {k : Nat} {v : α} {p : Nat × α} (h : p ∈ Memory.write m k v) :
    p ∈ m ∨ p = (k, v) := by
  induction m with
  | nil => simp [Memory.write] at h; exact .inr h
  | cons q m ih =>
    obtain ⟨j, u⟩ := q
    simp only [Memory.write] at h
    split at h
    · rcases List.mem_cons.1 h with rfl | h
      · exact .inr rfl
      · exact .inl h
    · split at h
      · rcases List.mem_cons.1 h with rfl | h
        · exact .inr rfl
        · exact .inl (List.mem_cons_of_mem _ h)
      · rcases List.mem_cons.1 h with rfl | h
        · exact .inl (List.mem_cons_self ..)
        · exact (ih h).imp (List.mem_cons_of_mem _) id

theorem Memory.write_wf {m : Memory α} (h : Memory.wf m) (k : Nat) (v : α) : Memory.wf (Memory.write m k v) := by
  induction m with
  | nil => simp [Memory.write]
  | cons q m ih =>
    obtain ⟨j, u⟩ := q
    have hj := List.pairwise_cons.1 h
    simp only [Memory.write]
    split
    · next hk =>
      refine List.pairwise_cons.2 ⟨fun p hp => ?_, h⟩
      rcases List.mem_cons.1 hp with rfl | hp
      · exact hk
      · exact Nat.lt_trans hk (hj.1 p hp)
    · split
      · next _ hk => subst hk; exact List.pairwise_cons.2 ⟨hj.1, hj.2⟩
      · next h1 h2 =>
        refine List.pairwise_cons.2 ⟨fun p hp => ?_, ih hj.2⟩
        rcases Memory.mem_write hp with hp | rfl
        · exact hj.1 p hp
        · show j < k
          omega

theorem Memory.writeFrom_wf (l : List α) : ∀ {m : Memory α} (_ : Memory.wf m) (k : Nat),
    Memory.wf (Memory.writeFrom m k l) := by
  induction l with
  | nil => intro m h k; exact h
  | cons v l ih => intro m h k; exact ih (Memory.write_wf h k v) (k + 1)

theorem Memory.write_within {m : Memory α} {bound k : Nat} (h : Memory.within m bound) (hk : k < bound) (v : α) :
    Memory.within (Memory.write m k v) bound := by
  refine ⟨Memory.write_wf h.1 k v, fun j u hj => ?_⟩
  rcases Memory.mem_write hj with hj | hj
  · exact h.2 j u hj
  · cases hj; exact hk

theorem Memory.writeFrom_within (l : List α) : ∀ {m : Memory α} {bound k : Nat} (_ : Memory.within m bound)
    (_ : k + l.length ≤ bound), Memory.within (Memory.writeFrom m k l) bound := by
  induction l with
  | nil => intro m bound k h _; exact h
  | cons v l ih =>
    intro m bound k h hk
    rw [List.length_cons] at hk
    exact ih (Memory.write_within h (by omega) v) (by omega)

theorem Memory.within_nil (bound : Nat) : Memory.within ([] : Memory α) bound := by
  simp [Memory.within]

/-- A listed location of a canonical memory reads as its entry. -/
theorem Memory.read_of_mem {m : Memory α} (h : Memory.wf m) {k : Nat} {v : α} (hm : (k, v) ∈ m) :
    Memory.read m k = some v := by
  induction m with
  | nil => cases hm
  | cons q m ih =>
    obtain ⟨j, u⟩ := q
    have hj := List.pairwise_cons.1 h
    rcases List.mem_cons.1 hm with he | hm
    · cases he; simp [Memory.read]
    · have hlt : j < k := hj.1 _ hm
      simp only [Memory.read, if_neg (Nat.ne_of_lt hlt)]
      exact ih hj.2 hm

/-- A location that reads as a value is listed with it. -/
theorem Memory.mem_of_read {m : Memory α} {k : Nat} {v : α} (h : Memory.read m k = some v) : (k, v) ∈ m := by
  induction m with
  | nil => cases h
  | cons q m ih =>
    obtain ⟨j, u⟩ := q
    simp only [Memory.read] at h
    split at h
    · next hj => cases h; subst hj; exact List.mem_cons_self ..
    · exact List.mem_cons_of_mem _ (ih h)

/-- Writing keeps written locations written. -/
theorem Memory.isSome_read_write {m : Memory α} {j : Nat} (k : Nat) (v : α) (h : (Memory.read m j).isSome) :
    (Memory.read (Memory.write m k v) j).isSome := by
  rw [Memory.read_write]; split <;> simp_all

theorem Memory.isSome_read_writeFrom {m : Memory α} {j : Nat} (k : Nat) (l : List α)
    (h : (Memory.read m j).isSome) : (Memory.read (Memory.writeFrom m k l) j).isSome := by
  rw [Memory.read_writeFrom]
  split
  · next hr => rw [List.getElem?_eq_getElem (by omega)]; rfl
  · exact h

end Sys2Proof.Machine
end

