-- ==== Sys2Proof/Laws/Port.lean ====
section
/-! SUPPORT. Pixel memory and the pixel port: the traversal order, what an embed stages and what an extract reads. -/

namespace Sys2Proof.Machine

/-! ### The traversal order -/

theorem pixelOf_fst (i H : Nat) : (pixelOf i H).1 = i / H := rfl

theorem pixelOf_snd (i H : Nat) : (pixelOf i H).2 = i % H := rfl

theorem pixelOf_eq_iff {i H x y : Nat} (hH : 0 < H) : pixelOf i H = (x, y) ↔ y < H ∧ i = x * H + y := by
  simp only [pixelOf, Prod.mk.injEq]
  constructor
  · rintro ⟨rfl, rfl⟩
    exact ⟨Nat.mod_lt _ hH, by rw [Nat.mul_comm]; exact (Nat.div_add_mod i H).symm⟩
  · rintro ⟨hy, rfl⟩
    refine ⟨?_, ?_⟩
    · rw [Nat.mul_comm, Nat.mul_add_div hH, Nat.div_eq_of_lt hy, Nat.add_zero]
    · rw [Nat.mul_comm, Nat.mul_add_mod, Nat.mod_eq_of_lt hy]

theorem pixelOf_injective {i j H : Nat} (hH : 0 < H) (h : pixelOf i H = pixelOf j H) : i = j := by
  have h1 := (pixelOf_eq_iff (x := (pixelOf j H).1) (y := (pixelOf j H).2) hH).1 h
  have h2 := (pixelOf_eq_iff (i := j) (x := (pixelOf j H).1) (y := (pixelOf j H).2) hH).1 rfl
  omega

/-- The traversal order lists `pixel_of(i, H)` for `i` from 0 up. -/
theorem traversal_eq_map (W H : Nat) : traversal W H = (List.range (W * H)).map fun i => pixelOf i H := by
  induction W with
  | zero => simp [traversal]
  | succ W ih =>
    have h : traversal (W + 1) H = traversal W H ++ (List.range H).map fun y => (W, y) := by
      simp [traversal, List.range_succ, List.flatMap_append]
    rw [h, ih, Nat.add_mul, Nat.one_mul, List.range_add, List.map_append, List.map_map]
    congr 1
    refine List.map_congr_left fun y hy => ?_
    have hy' : y < H := List.mem_range.1 hy
    exact ((pixelOf_eq_iff (by omega)).2 ⟨hy', rfl⟩).symm

/-! ### Reads and writes -/

theorem pixKey_injective {x y x' y' : Nat} {c c' : Channel} (hy : y < 65536) (hy' : y' < 65536)
    (h : pixKey x y c = pixKey x' y' c') : x = x' ∧ y = y' ∧ c = c' := by
  unfold pixKey at h
  have hc : channelNumber c = channelNumber c' := by
    have h1 : channelNumber c < 4 := by cases c <;> decide
    have h2 : channelNumber c' < 4 := by cases c' <;> decide
    omega
  refine ⟨by omega, by omega, ?_⟩
  cases c <;> cases c' <;> first | rfl | simp [channelNumber] at hc

theorem inGrid_row {p : PixelMemory} {x y : Nat} {c : Channel} (h : p.inGrid x y c = true) : y < 65536 := by
  simp only [PixelMemory.inGrid, Bool.and_eq_true, decide_eq_true_eq] at h
  have := p.height.isLt
  omega

theorem inGrid_of_pixRead {p : PixelMemory} {x y : Nat} {c : Channel} {v : Byte} (h : pixRead p x y c = some v) :
    p.inGrid x y c = true := by
  unfold pixRead at h; split at h
  · assumption
  · cases h

@[simp] theorem pixWrite_width (p : PixelMemory) (x y : Nat) (c : Channel) (v : Byte) :
    (pixWrite p x y c v).width = p.width := rfl

@[simp] theorem pixWrite_height (p : PixelMemory) (x y : Nat) (c : Channel) (v : Byte) :
    (pixWrite p x y c v).height = p.height := rfl

@[simp] theorem pixWrite_inGrid (p : PixelMemory) (x y : Nat) (c : Channel) (v : Byte) :
    (pixWrite p x y c v).inGrid = p.inGrid := rfl

/-- A read after a write of a location the image has. -/
theorem pixRead_pixWrite {p : PixelMemory} {x y : Nat} {c : Channel} (h : p.inGrid x y c = true) (v : Byte)
    (x' y' : Nat) (c' : Channel) :
    pixRead (pixWrite p x y c v) x' y' c' = if x' = x ∧ y' = y ∧ c' = c then some v else pixRead p x' y' c' := by
  unfold pixRead
  rw [pixWrite_inGrid]
  by_cases h' : p.inGrid x' y' c' = true
  · rw [if_pos h']
    simp only [pixWrite, Memory.read_write]
    by_cases hk : pixKey x' y' c' = pixKey x y c
    · rw [if_pos hk, if_pos (pixKey_injective (inGrid_row h') (inGrid_row h) hk)]
    · rw [if_neg hk, if_neg, if_pos h']
      rintro ⟨rfl, rfl, rfl⟩; exact hk rfl
  · rw [if_neg h', if_neg, if_neg h']
    rintro ⟨rfl, rfl, rfl⟩; exact h' h

/-! ### Staged writes -/

theorem commitPort_width (l : List PortAccess) : ∀ p : PixelMemory, (commitPort p l).width = p.width := by
  induction l with
  | nil => intro p; rfl
  | cons a l ih => intro p; cases a <;> simp [commitPort, ih]

theorem commitPort_height (l : List PortAccess) : ∀ p : PixelMemory, (commitPort p l).height = p.height := by
  induction l with
  | nil => intro p; rfl
  | cons a l ih => intro p; cases a <;> simp [commitPort, ih]

theorem commitPort_inGrid (l : List PortAccess) (p : PixelMemory) : (commitPort p l).inGrid = p.inGrid := by
  unfold PixelMemory.inGrid
  rw [commitPort_width, commitPort_height]

/-! ### What an embed stages -/

section
variable {p : PixelMemory} {H : Nat}

/-- The shape of the accesses of one more bit. -/
theorem embedAccesses_cons {i : Nat} {b : Bool} {s : List Bool} {l : List PortAccess} :
    embedAccesses p H i (b :: s) = some l ↔
      ∃ v l', pixRead p (pixelOf i H).1 (pixelOf i H).2 .blue = some v ∧ embedAccesses p H (i + 1) s = some l' ∧
        l = .read (pixelOf i H).1 (pixelOf i H).2 .blue v ::
          ((if subParity v b = v then [] else [.write (pixelOf i H).1 (pixelOf i H).2 .blue (subParity v b)]) ++ l') := by
  simp only [embedAccesses, Config.carrierChannel]
  split
  · next v l' hv hl =>
    rw [hv, hl]
    constructor
    · intro h
      refine ⟨v, l', rfl, rfl, ?_⟩
      split at h <;> next he => simpa [he] using h.symm
    · rintro ⟨v', l'', hv', hl', rfl⟩
      cases hv'; cases hl'
      split <;> rfl
  · next h =>
    constructor
    · intro he; cases he
    · rintro ⟨v, l', hv, hl, -⟩; exact (h v l' hv hl).elim

/-- An embed finds its pixels loaded, or faults. -/
theorem embedAccesses_isSome (s : List Bool) : ∀ i : Nat,
    (∃ l, embedAccesses p H i s = some l) ↔
      ∀ j, j < s.length → (pixRead p (pixelOf (i + j) H).1 (pixelOf (i + j) H).2 .blue).isSome = true := by
  induction s with
  | nil => intro i; simp [embedAccesses]
  | cons b s ih =>
    intro i
    simp only [embedAccesses_cons]
    constructor
    · rintro ⟨l, v, l', hv, hl, -⟩ j hj
      cases j with
      | zero => rw [Nat.add_zero, hv]; rfl
      | succ j =>
        have := (ih (i + 1)).1 ⟨l', hl⟩ j (by simpa using hj)
        rwa [show i + 1 + j = i + (j + 1) by omega] at this
    · intro h
      obtain ⟨v, hv⟩ := Option.isSome_iff_exists.1 (h 0 (by simp))
      rw [Nat.add_zero] at hv
      obtain ⟨l', hl⟩ := (ih (i + 1)).2 fun j hj => by
        rw [show i + 1 + j = i + (j + 1) by omega]; exact h (j + 1) (by simpa using hj)
      exact ⟨_, v, l', hv, hl, rfl⟩

/-- What the staged writes of an embed do to a pixel memory `q` that still reads as `p` at the pixels to come: those
pixels are adjusted, and every other location reads as before. -/
theorem commitPort_embedAccesses (hH : 0 < H) (s : List Bool) : ∀ (i : Nat) (l : List PortAccess) (q : PixelMemory),
    embedAccesses p H i s = some l → q.inGrid = p.inGrid →
    (∀ j, i ≤ j → pixRead q (pixelOf j H).1 (pixelOf j H).2 .blue = pixRead p (pixelOf j H).1 (pixelOf j H).2 .blue) →
    (∀ j b, s[j]? = some b → pixRead (commitPort q l) (pixelOf (i + j) H).1 (pixelOf (i + j) H).2 .blue =
      (pixRead p (pixelOf (i + j) H).1 (pixelOf (i + j) H).2 .blue).map (subParity · b)) ∧
    (∀ x y c, (c = .blue → ∀ j, j < s.length → pixelOf (i + j) H ≠ (x, y)) →
      pixRead (commitPort q l) x y c = pixRead q x y c) := by
  induction s with
  | nil =>
    intro i l q h _ _
    simp only [embedAccesses, Option.some.injEq] at h
    subst h
    simp [commitPort]
  | cons b s ih =>
    intro i l q h hg hq
    obtain ⟨v, l', hv, hl, rfl⟩ := embedAccesses_cons.1 h
    have hgrid := inGrid_of_pixRead hv
    -- the pixel memory after this bit's own write, if any
    obtain ⟨q', hq'⟩ : ∃ q', q' = if subParity v b = v then q
        else pixWrite q (pixelOf i H).1 (pixelOf i H).2 .blue (subParity v b) := ⟨_, rfl⟩
    have hcommit : commitPort q (.read (pixelOf i H).1 (pixelOf i H).2 .blue v ::
        ((if subParity v b = v then [] else [.write (pixelOf i H).1 (pixelOf i H).2 .blue (subParity v b)]) ++ l')) =
        commitPort q' l' := by
      rw [hq']; split <;> simp [commitPort]
    have hg' : q'.inGrid = p.inGrid := by rw [hq']; split <;> simp [hg]
    have hread : ∀ x y c, pixRead q' x y c = if x = (pixelOf i H).1 ∧ y = (pixelOf i H).2 ∧ c = .blue
        then some (subParity v b) else pixRead q x y c := by
      intro x y c
      rw [hq']
      split
      · next he =>
        split
        · next hxy =>
          obtain ⟨rfl, rfl, rfl⟩ := hxy
          rw [hq i (Nat.le_refl i), hv, he]
        · rfl
      · rw [pixRead_pixWrite (by rw [hg]; exact hgrid)]
    have hrest : ∀ j, i + 1 ≤ j →
        pixRead q' (pixelOf j H).1 (pixelOf j H).2 .blue = pixRead p (pixelOf j H).1 (pixelOf j H).2 .blue := by
      intro j hj
      rw [hread, if_neg, hq j (by omega)]
      rintro ⟨h1, h2, -⟩
      have := pixelOf_injective hH (Prod.ext h1 h2)
      omega
    obtain ⟨ih1, ih2⟩ := ih (i + 1) l' q' hl hg' hrest
    rw [hcommit]
    constructor
    · intro j b' hb
      cases j with
      | zero =>
        simp only [List.getElem?_cons_zero, Option.some.injEq] at hb
        subst hb
        rw [Nat.add_zero, ih2 _ _ _ fun _ j _ hne => by
          have := pixelOf_injective hH hne; omega, hread, if_pos ⟨rfl, rfl, rfl⟩, hv]
        rfl
      | succ j =>
        rw [List.getElem?_cons_succ] at hb
        have := ih1 j b' hb
        rwa [show i + 1 + j = i + (j + 1) by omega] at this
    · intro x y c hne
      rw [ih2 x y c, hread, if_neg]
      · rintro ⟨rfl, rfl, hc⟩
        exact hne hc 0 (by simp) rfl
      · intro hc j hj
        rw [show i + 1 + j = i + (j + 1) by omega]
        exact hne hc (j + 1) (by simpa using hj)

/-- The accesses of an embed, written out: for each bit a read, then a write only where the value changes. -/
theorem embedAccesses_eq (s : List Bool) : ∀ (i : Nat) (l : List PortAccess) (V : Nat → Byte) (B : Nat → Bool),
    embedAccesses p H i s = some l →
    (∀ j, j < s.length → s[j]? = some (B (i + j)) ∧
      pixRead p (pixelOf (i + j) H).1 (pixelOf (i + j) H).2 .blue = some (V (i + j))) →
    l = (List.range' i s.length).flatMap fun j =>
      PortAccess.read (pixelOf j H).1 (pixelOf j H).2 .blue (V j) ::
        if subParity (V j) (B j) = V j then []
        else [PortAccess.write (pixelOf j H).1 (pixelOf j H).2 .blue (subParity (V j) (B j))] := by
  induction s with
  | nil =>
    intro i l V B h _
    simp only [embedAccesses, Option.some.injEq] at h
    simp [← h]
  | cons b s ih =>
    intro i l V B h hV
    obtain ⟨v, l', hv, hl, rfl⟩ := embedAccesses_cons.1 h
    have h0 := hV 0 (by simp)
    rw [Nat.add_zero, hv] at h0
    simp only [List.getElem?_cons_zero, Option.some.injEq] at h0
    obtain ⟨rfl, rfl⟩ := h0
    rw [List.length_cons, List.range'_succ, List.flatMap_cons,
      ih (i + 1) l' V B hl fun j hj => by
        have := hV (j + 1) (by simpa using hj)
        rw [List.getElem?_cons_succ] at this
        rwa [show i + 1 + j = i + (j + 1) by omega]]
    simp

end

/-! ### What an extract reads -/

/-- The values an extract reads are those of its pixels. -/
theorem readBlues_eq_some (p : PixelMemory) (l : List (Nat × Nat)) : ∀ vs : List Byte,
    readBlues p l = some vs ↔ l.map (fun q => pixRead p q.1 q.2 .blue) = vs.map some := by
  induction l with
  | nil => intro vs; cases vs <;> simp [readBlues]
  | cons q l ih =>
    intro vs
    simp only [readBlues, Config.carrierChannel]
    cases vs with
    | nil => split <;> simp
    | cons w ws =>
      simp only [List.map_cons, List.cons.injEq, ← ih ws]
      split
      · next v us hv hu => rw [hv, hu]; simp
      · next h =>
        constructor
        · intro he; cases he
        · rintro ⟨h1, h2⟩; exact (h w ws h1 h2).elim

/-- An extract finds its pixels loaded, or faults. -/
theorem readBlues_eq_none (p : PixelMemory) (l : List (Nat × Nat)) :
    readBlues p l = none ↔ ∃ q ∈ l, pixRead p q.1 q.2 .blue = none := by
  induction l with
  | nil => simp [readBlues]
  | cons q l ih =>
    simp only [readBlues, Config.carrierChannel, List.mem_cons, exists_eq_or_imp, ← ih]
    cases pixRead p q.1 q.2 .blue <;> cases readBlues p l <;> simp

theorem readAccesses_eq_map (l : List (Nat × Nat)) (V : Nat × Nat → Byte) :
    readAccesses l (l.map V) = l.map fun q => .read q.1 q.2 .blue (V q) := by
  induction l with
  | nil => rfl
  | cons q l ih => simp [readAccesses, ih]

/-- The accesses of the reads along an indexed list of pixels, when the values are known by index. -/
theorem readAccesses_of_values {p : PixelMemory} {f : Nat → Nat × Nat} {V : Nat → Byte} (is : List Nat) :
    ∀ vs, readBlues p (is.map f) = some vs → (∀ i ∈ is, pixRead p (f i).1 (f i).2 .blue = some (V i)) →
      readAccesses (is.map f) vs = is.map fun i => .read (f i).1 (f i).2 .blue (V i) := by
  induction is with
  | nil => intro vs _ _; rfl
  | cons i is ih =>
    intro vs h hV
    simp only [List.map_cons, readBlues, hV i (List.mem_cons_self ..)] at h
    cases hr : readBlues p (is.map f) with
    | none => rw [hr] at h; cases h
    | some vs' =>
      rw [hr] at h; cases h
      simp only [List.map_cons, readAccesses]
      rw [ih vs' hr fun j hj => hV j (List.mem_cons_of_mem _ hj)]

end Sys2Proof.Machine
end

