-- ==== Sys2Proof/Laws/State.lean ====
section
/-! SUPPORT. The named updates of the state, field by field, and how a command ends. -/

namespace Sys2Proof.Machine

variable (s : State)

/-! ### `setStatus` -/

@[simp] theorem setStatus_status (c : StatusCode) : (s.setStatus c).status = c := rfl
@[simp] theorem setStatus_msgLen (c : StatusCode) : (s.setStatus c).msgLen = s.msgLen := rfl
@[simp] theorem setStatus_bitLen (c : StatusCode) : (s.setStatus c).bitLen = s.bitLen := rfl
@[simp] theorem setStatus_width (c : StatusCode) : (s.setStatus c).width = s.width := rfl
@[simp] theorem setStatus_height (c : StatusCode) : (s.setStatus c).height = s.height := rfl
@[simp] theorem setStatus_subResult (c : StatusCode) : (s.setStatus c).subResult = s.subResult := rfl
@[simp] theorem setStatus_msg (c : StatusCode) : (s.setStatus c).msg = s.msg := rfl
@[simp] theorem setStatus_bits (c : StatusCode) : (s.setStatus c).bits = s.bits := rfl
@[simp] theorem setStatus_image (c : StatusCode) : (s.setStatus c).image = s.image := rfl
@[simp] theorem setStatus_script (c : StatusCode) : (s.setStatus c).script = s.script := rfl
@[simp] theorem setStatus_replies (c : StatusCode) : (s.setStatus c).replies = s.replies := rfl
@[simp] theorem setStatus_portLog (c : StatusCode) : (s.setStatus c).portLog = s.portLog := rfl
@[simp] theorem setStatus_resets (c : StatusCode) : (s.setStatus c).resets = s.resets := rfl

/-! ### `setMessage` -/

@[simp] theorem setMessage_status (m : List Byte) : (s.setMessage m).status = s.status := rfl
@[simp] theorem setMessage_msgLen (m : List Byte) : (s.setMessage m).msgLen = BitVec.ofNat 32 m.length := rfl
@[simp] theorem setMessage_bitLen (m : List Byte) : (s.setMessage m).bitLen = s.bitLen := rfl
@[simp] theorem setMessage_width (m : List Byte) : (s.setMessage m).width = s.width := rfl
@[simp] theorem setMessage_height (m : List Byte) : (s.setMessage m).height = s.height := rfl
@[simp] theorem setMessage_subResult (m : List Byte) : (s.setMessage m).subResult = s.subResult := rfl
@[simp] theorem setMessage_msg (m : List Byte) : (s.setMessage m).msg = Memory.writeFrom s.msg 0 m := rfl
@[simp] theorem setMessage_bits (m : List Byte) : (s.setMessage m).bits = s.bits := rfl
@[simp] theorem setMessage_image (m : List Byte) : (s.setMessage m).image = s.image := rfl
@[simp] theorem setMessage_script (m : List Byte) : (s.setMessage m).script = s.script := rfl
@[simp] theorem setMessage_replies (m : List Byte) : (s.setMessage m).replies = s.replies := rfl
@[simp] theorem setMessage_portLog (m : List Byte) : (s.setMessage m).portLog = s.portLog := rfl
@[simp] theorem setMessage_resets (m : List Byte) : (s.setMessage m).resets = s.resets := rfl

/-! ### `setBitSequence` -/

@[simp] theorem setBitSequence_status (b : List Bool) : (s.setBitSequence b).status = s.status := rfl
@[simp] theorem setBitSequence_msgLen (b : List Bool) : (s.setBitSequence b).msgLen = s.msgLen := rfl
@[simp] theorem setBitSequence_bitLen (b : List Bool) : (s.setBitSequence b).bitLen = BitVec.ofNat 32 b.length := rfl
@[simp] theorem setBitSequence_width (b : List Bool) : (s.setBitSequence b).width = s.width := rfl
@[simp] theorem setBitSequence_height (b : List Bool) : (s.setBitSequence b).height = s.height := rfl
@[simp] theorem setBitSequence_subResult (b : List Bool) : (s.setBitSequence b).subResult = s.subResult := rfl
@[simp] theorem setBitSequence_msg (b : List Bool) : (s.setBitSequence b).msg = s.msg := rfl
@[simp] theorem setBitSequence_bits (b : List Bool) : (s.setBitSequence b).bits = Memory.writeFrom s.bits 0 b := rfl
@[simp] theorem setBitSequence_image (b : List Bool) : (s.setBitSequence b).image = s.image := rfl
@[simp] theorem setBitSequence_script (b : List Bool) : (s.setBitSequence b).script = s.script := rfl
@[simp] theorem setBitSequence_replies (b : List Bool) : (s.setBitSequence b).replies = s.replies := rfl
@[simp] theorem setBitSequence_portLog (b : List Bool) : (s.setBitSequence b).portLog = s.portLog := rfl
@[simp] theorem setBitSequence_resets (b : List Bool) : (s.setBitSequence b).resets = s.resets := rfl

/-! ### `setSubResult` -/

@[simp] theorem setSubResult_status (v : Byte) : (s.setSubResult v).status = s.status := rfl
@[simp] theorem setSubResult_msgLen (v : Byte) : (s.setSubResult v).msgLen = s.msgLen := rfl
@[simp] theorem setSubResult_bitLen (v : Byte) : (s.setSubResult v).bitLen = s.bitLen := rfl
@[simp] theorem setSubResult_width (v : Byte) : (s.setSubResult v).width = s.width := rfl
@[simp] theorem setSubResult_height (v : Byte) : (s.setSubResult v).height = s.height := rfl
@[simp] theorem setSubResult_subResult (v : Byte) : (s.setSubResult v).subResult = v := rfl
@[simp] theorem setSubResult_msg (v : Byte) : (s.setSubResult v).msg = s.msg := rfl
@[simp] theorem setSubResult_bits (v : Byte) : (s.setSubResult v).bits = s.bits := rfl
@[simp] theorem setSubResult_image (v : Byte) : (s.setSubResult v).image = s.image := rfl
@[simp] theorem setSubResult_script (v : Byte) : (s.setSubResult v).script = s.script := rfl
@[simp] theorem setSubResult_replies (v : Byte) : (s.setSubResult v).replies = s.replies := rfl
@[simp] theorem setSubResult_portLog (v : Byte) : (s.setSubResult v).portLog = s.portLog := rfl
@[simp] theorem setSubResult_resets (v : Byte) : (s.setSubResult v).resets = s.resets := rfl

/-! ### `commitPixels` -/

@[simp] theorem commitPixels_status (l : List PortAccess) : (s.commitPixels l).status = s.status := rfl
@[simp] theorem commitPixels_msgLen (l : List PortAccess) : (s.commitPixels l).msgLen = s.msgLen := rfl
@[simp] theorem commitPixels_bitLen (l : List PortAccess) : (s.commitPixels l).bitLen = s.bitLen := rfl
@[simp] theorem commitPixels_width (l : List PortAccess) : (s.commitPixels l).width = s.width := rfl
@[simp] theorem commitPixels_height (l : List PortAccess) : (s.commitPixels l).height = s.height := rfl
@[simp] theorem commitPixels_subResult (l : List PortAccess) : (s.commitPixels l).subResult = s.subResult := rfl
@[simp] theorem commitPixels_msg (l : List PortAccess) : (s.commitPixels l).msg = s.msg := rfl
@[simp] theorem commitPixels_bits (l : List PortAccess) : (s.commitPixels l).bits = s.bits := rfl
@[simp] theorem commitPixels_image (l : List PortAccess) : (s.commitPixels l).image = commitPort s.image l := rfl
@[simp] theorem commitPixels_script (l : List PortAccess) : (s.commitPixels l).script = s.script := rfl
@[simp] theorem commitPixels_replies (l : List PortAccess) : (s.commitPixels l).replies = s.replies := rfl
@[simp] theorem commitPixels_portLog (l : List PortAccess) : (s.commitPixels l).portLog = s.portLog := rfl
@[simp] theorem commitPixels_resets (l : List PortAccess) : (s.commitPixels l).resets = s.resets := rfl

/-! ### `logPort` -/

@[simp] theorem logPort_status (l : List PortAccess) : (s.logPort l).status = s.status := rfl
@[simp] theorem logPort_msgLen (l : List PortAccess) : (s.logPort l).msgLen = s.msgLen := rfl
@[simp] theorem logPort_bitLen (l : List PortAccess) : (s.logPort l).bitLen = s.bitLen := rfl
@[simp] theorem logPort_width (l : List PortAccess) : (s.logPort l).width = s.width := rfl
@[simp] theorem logPort_height (l : List PortAccess) : (s.logPort l).height = s.height := rfl
@[simp] theorem logPort_subResult (l : List PortAccess) : (s.logPort l).subResult = s.subResult := rfl
@[simp] theorem logPort_msg (l : List PortAccess) : (s.logPort l).msg = s.msg := rfl
@[simp] theorem logPort_bits (l : List PortAccess) : (s.logPort l).bits = s.bits := rfl
@[simp] theorem logPort_image (l : List PortAccess) : (s.logPort l).image = s.image := rfl
@[simp] theorem logPort_script (l : List PortAccess) : (s.logPort l).script = s.script := rfl
@[simp] theorem logPort_replies (l : List PortAccess) : (s.logPort l).replies = s.replies := rfl
@[simp] theorem logPort_portLog (l : List PortAccess) : (s.logPort l).portLog = s.portLog ++ l := rfl
@[simp] theorem logPort_resets (l : List PortAccess) : (s.logPort l).resets = s.resets := rfl

/-! ### `reply` -/

@[simp] theorem reply_status (v : Word) : (s.reply v).status = s.status := rfl
@[simp] theorem reply_msgLen (v : Word) : (s.reply v).msgLen = s.msgLen := rfl
@[simp] theorem reply_bitLen (v : Word) : (s.reply v).bitLen = s.bitLen := rfl
@[simp] theorem reply_width (v : Word) : (s.reply v).width = s.width := rfl
@[simp] theorem reply_height (v : Word) : (s.reply v).height = s.height := rfl
@[simp] theorem reply_subResult (v : Word) : (s.reply v).subResult = s.subResult := rfl
@[simp] theorem reply_msg (v : Word) : (s.reply v).msg = s.msg := rfl
@[simp] theorem reply_bits (v : Word) : (s.reply v).bits = s.bits := rfl
@[simp] theorem reply_image (v : Word) : (s.reply v).image = s.image := rfl
@[simp] theorem reply_script (v : Word) : (s.reply v).script = s.script := rfl
@[simp] theorem reply_replies (v : Word) : (s.reply v).replies = s.replies ++ [v] := rfl
@[simp] theorem reply_portLog (v : Word) : (s.reply v).portLog = s.portLog := rfl
@[simp] theorem reply_resets (v : Word) : (s.reply v).resets = s.resets := rfl

/-! ### `setScript` -/

@[simp] theorem setScript_status (l : List HostEvent) : (s.setScript l).status = s.status := rfl
@[simp] theorem setScript_msgLen (l : List HostEvent) : (s.setScript l).msgLen = s.msgLen := rfl
@[simp] theorem setScript_bitLen (l : List HostEvent) : (s.setScript l).bitLen = s.bitLen := rfl
@[simp] theorem setScript_width (l : List HostEvent) : (s.setScript l).width = s.width := rfl
@[simp] theorem setScript_height (l : List HostEvent) : (s.setScript l).height = s.height := rfl
@[simp] theorem setScript_subResult (l : List HostEvent) : (s.setScript l).subResult = s.subResult := rfl
@[simp] theorem setScript_msg (l : List HostEvent) : (s.setScript l).msg = s.msg := rfl
@[simp] theorem setScript_bits (l : List HostEvent) : (s.setScript l).bits = s.bits := rfl
@[simp] theorem setScript_image (l : List HostEvent) : (s.setScript l).image = s.image := rfl
@[simp] theorem setScript_script (l : List HostEvent) : (s.setScript l).script = l := rfl
@[simp] theorem setScript_replies (l : List HostEvent) : (s.setScript l).replies = s.replies := rfl
@[simp] theorem setScript_portLog (l : List HostEvent) : (s.setScript l).portLog = s.portLog := rfl
@[simp] theorem setScript_resets (l : List HostEvent) : (s.setScript l).resets = s.resets := rfl

/-! ### How a command ends -/

theorem raise_eq (c : StatusCode) : raise c s = .next (s.setStatus c) := rfl

theorem commit_eq : commit s = .next (s.setStatus .ok) := rfl

@[simp] theorem raise_eq_next (c : StatusCode) (t : State) : raise c s = .next t ↔ t = s.setStatus c :=
  ⟨fun h => by cases h; rfl, fun h => by rw [h]; rfl⟩

@[simp] theorem commit_eq_next (t : State) : commit s = .next t ↔ t = s.setStatus .ok :=
  ⟨fun h => by cases h; rfl, fun h => by rw [h]; rfl⟩

@[simp] theorem raise_ne_fault (c : StatusCode) (f : Fault) : raise c s ≠ .fault f := nofun

@[simp] theorem commit_ne_fault (f : Fault) : commit s ≠ .fault f := nofun

section
variable {α : Type} (k : α → Result)

@[simp] theorem orFault_none : orFault none k = .fault .unwrittenRead := rfl

@[simp] theorem orFault_some (a : α) : orFault (some a) k = k a := rfl

@[simp] theorem orRaise_error (c : StatusCode) : orRaise (.error c) s k = raise c s := rfl

@[simp] theorem orRaise_ok (a : α) : orRaise (.ok a) s k = k a := rfl

/-- What is behind a next state of a body that reads. -/
theorem orFault_eq_next {o : Option α} {t : State} : orFault o k = .next t ↔ ∃ a, o = some a ∧ k a = .next t := by
  cases o <;> simp

/-- What is behind a fault of a body that reads. -/
theorem orFault_eq_fault {o : Option α} {f : Fault} :
    orFault o k = .fault f ↔ (o = none ∧ f = .unwrittenRead) ∨ ∃ a, o = some a ∧ k a = .fault f := by
  cases o <;> simp [eq_comm]

/-- What is behind a next state of a body that calls a pure function. -/
theorem orRaise_eq_next {r : Except StatusCode α} {t : State} :
    orRaise r s k = .next t ↔ (∃ c, r = .error c ∧ t = s.setStatus c) ∨ ∃ a, r = .ok a ∧ k a = .next t := by
  cases r <;> simp

end

end Sys2Proof.Machine
end

