-- ==== Sys2Proof/Laws/Exec.lean ====
section
/-! SUPPORT. What each command can do, once: the cases behind a next state. -/

namespace Sys2Proof.Machine

variable {s t : State}

/-- What is behind a next state of ENCODE. -/
theorem execEncode_cases : execEncode s = .next t ↔
    (65536 ≤ 8 * s.msgLen.toNat ∧ t = s.setStatus .messageTooLong) ∨
    (8 * s.msgLen.toNat < 65536 ∧ ∃ m b, messageOperand s s.msgLen.toNat = some m ∧
      b = u16ToBits (8 * m.length) ++ bytesToBits m ∧ t = (s.setBitSequence b).setStatus .ok) := by
  unfold execEncode messageCount
  by_cases h : 65536 ≤ 8 * s.msgLen.toNat
  · simp [h, show ¬ 8 * s.msgLen.toNat < 65536 by omega]
  · simp only [messageTooLong_iff, h, if_false, false_and, false_or, show 8 * s.msgLen.toNat < 65536 by omega, true_and,
      orFault_eq_next]
    refine exists_congr fun m => ?_
    simp only [exists_and_left, exists_eq_left]
    refine and_congr_right fun hm => ?_
    have hlen := ((Memory.readRange_eq_some _ _ _ _).1 hm).1
    rw [codecEncode_eq_ok.2 ⟨by omega, rfl⟩, orRaise_ok, commit_eq_next]

/-- What is behind a next state of DECODE. -/
theorem execDecode_cases : execDecode s = .next t ↔
    (Config.bitCap < s.bitLen.toNat ∧ t = s.setStatus .capacityExceeded) ∨
    (s.bitLen.toNat ≤ Config.bitCap ∧ s.bitLen.toNat < 16 ∧ t = s.setStatus .malformedData) ∨
    (s.bitLen.toNat ≤ Config.bitCap ∧ 16 ≤ s.bitLen.toNat ∧ ∃ p, bitsOperand s 0 16 = some p ∧
      (((bitsToU16 p % 8 ≠ 0 ∨ s.bitLen.toNat - 16 < bitsToU16 p) ∧ t = s.setStatus .malformedData) ∨
        (bitsToU16 p % 8 = 0 ∧ 16 + bitsToU16 p ≤ s.bitLen.toNat ∧ ∃ q, bitsOperand s 16 (bitsToU16 p) = some q ∧
          t = (s.setMessage (bitsToBytes q)).setStatus .ok))) := by
  unfold execDecode bitCount
  by_cases h : Config.bitCap < s.bitLen.toNat
  · simp [capacityExceeded_iff, h, Nat.not_le_of_lt h]
  · simp only [capacityExceeded_iff, h, if_false, false_and, false_or, Nat.le_of_not_lt h, true_and]
    by_cases h16 : s.bitLen.toNat < 16
    · simp [h16]
    · simp only [prefixMissing_iff, h16, if_false, false_and, false_or, Nat.le_of_not_lt h16, true_and, orFault_eq_next]
      refine exists_congr fun p => and_congr_right fun _ => ?_
      unfold decodeMessage bitCount
      by_cases hL : bitsToU16 p % 8 ≠ 0 ∨ s.bitLen.toNat - 16 < bitsToU16 p
      · simp only [prefixMalformed_iff, hL, if_true, raise_eq_next, true_and]
        exact ⟨Or.inl, fun h => h.elim id fun h => absurd h.2.1 (by omega)⟩
      · simp only [prefixMalformed_iff, hL, if_false, false_and, false_or, orFault_eq_next, commit_eq_next]
        refine ⟨fun h => ⟨by omega, by omega, h⟩, fun h => h.2.2⟩

/-- What is behind a next state of SUB. -/
theorem execSub_cases {v : Byte} {b : Bool} :
    execSub v b s = .next t ↔ t = (s.setSubResult (subParity v b)).setStatus .ok := commit_eq_next _ _

/-- What is behind a next state of the embedding stage. -/
theorem embedBits_cases {b : List Bool} : embedBits b s = .next t ↔
    ∃ l, embedAccesses s.image s.height.toNat 0 b = some l ∧ t = ((s.commitPixels l).logPort l).setStatus .ok := by
  simp [embedBits, orFault_eq_next, imageHeight]

/-- What is behind a next state of EMBED. -/
theorem execEmbed_cases : execEmbed s = .next t ↔
    (Config.bitCap < s.bitLen.toNat ∧ t = s.setStatus .capacityExceeded) ∨
    (s.bitLen.toNat ≤ Config.bitCap ∧ s.width.toNat * s.height.toNat < s.bitLen.toNat ∧
      t = s.setStatus .imageTooSmall) ∨
    (s.bitLen.toNat ≤ Config.bitCap ∧ s.bitLen.toNat ≤ s.width.toNat * s.height.toNat ∧
      ∃ b, bitsOperand s 0 s.bitLen.toNat = some b ∧ embedBits b s = .next t) := by
  unfold execEmbed bitCount imageCapacity imageWidth imageHeight
  by_cases h : Config.bitCap < s.bitLen.toNat
  · simp [capacityExceeded_iff, h, Nat.not_le_of_lt h]
  · simp only [capacityExceeded_iff, h, if_false, false_and, false_or, Nat.le_of_not_lt h, true_and]
    by_cases hc : s.width.toNat * s.height.toNat < s.bitLen.toNat
    · simp [hc]
    · simp [hc, Nat.le_of_not_lt hc, orFault_eq_next]

/-- What is behind a next state of a command that extracts. -/
theorem withExtractedBits_cases {k : List Bool → State → Result} : withExtractedBits s k = .next t ↔
    ∃ vs, readBlues s.image (traversal s.width.toNat s.height.toNat) = some vs ∧
      k (vs.map parity) (s.logPort (readAccesses (traversal s.width.toNat s.height.toNat) vs)) = .next t := by
  simp [withExtractedBits, orFault_eq_next, imageWidth, imageHeight]

/-- What is behind a next state of EXTRACT. -/
theorem execExtract_cases : execExtract s = .next t ↔
    (Config.bitCap < s.width.toNat * s.height.toNat ∧ t = s.setStatus .capacityExceeded) ∨
    (s.width.toNat * s.height.toNat ≤ Config.bitCap ∧
      ∃ vs, readBlues s.image (traversal s.width.toNat s.height.toNat) = some vs ∧
        t = ((s.logPort (readAccesses (traversal s.width.toNat s.height.toNat) vs)).setBitSequence
          (vs.map parity)).setStatus .ok) := by
  unfold execExtract imageCapacity imageWidth imageHeight
  by_cases h : Config.bitCap < s.width.toNat * s.height.toNat
  · simp [capacityExceeded_iff, h, Nat.not_le_of_lt h]
  · simp [capacityExceeded_iff, h, Nat.le_of_not_lt h, withExtractedBits_cases]

/-- What is behind a next state of ENCRYPT. -/
theorem execEncrypt_cases : execEncrypt s = .next t ↔
    (65536 ≤ 8 * s.msgLen.toNat ∧ t = s.setStatus .messageTooLong) ∨
    (8 * s.msgLen.toNat < 65536 ∧ s.width.toNat * s.height.toNat < 16 + 8 * s.msgLen.toNat ∧
      t = s.setStatus .imageTooSmall) ∨
    (8 * s.msgLen.toNat < 65536 ∧ 16 + 8 * s.msgLen.toNat ≤ s.width.toNat * s.height.toNat ∧
      ∃ m b, messageOperand s s.msgLen.toNat = some m ∧ b = u16ToBits (8 * m.length) ++ bytesToBits m ∧
        embedBits b s = .next t) := by
  unfold execEncrypt messageCount imageCapacity imageWidth imageHeight
  by_cases h : 65536 ≤ 8 * s.msgLen.toNat
  · simp [h, show ¬ 8 * s.msgLen.toNat < 65536 by omega]
  · simp only [messageTooLong_iff, h, if_false, false_and, false_or, show 8 * s.msgLen.toNat < 65536 by omega, true_and]
    by_cases hc : s.width.toNat * s.height.toNat < 16 + 8 * s.msgLen.toNat
    · simp [hc]
    · simp only [imageTooSmall_iff, hc, if_false, false_and, false_or, Nat.le_of_not_lt hc, true_and, orFault_eq_next]
      refine exists_congr fun m => ?_
      simp only [exists_and_left, exists_eq_left]
      refine and_congr_right fun hm => ?_
      have hlen := ((Memory.readRange_eq_some _ _ _ _).1 hm).1
      rw [codecEncode_eq_ok.2 ⟨by omega, rfl⟩, orRaise_ok]

/-- What is behind a next state of DECRYPT. -/
theorem execDecrypt_cases : execDecrypt s = .next t ↔
    ∃ vs, readBlues s.image (traversal s.width.toNat s.height.toNat) = some vs ∧
      ((∃ c, codecDecode (vs.map parity) = .error c ∧
          t = (s.logPort (readAccesses (traversal s.width.toNat s.height.toNat) vs)).setStatus c) ∨
        (∃ m, codecDecode (vs.map parity) = .ok m ∧
          t = ((s.logPort (readAccesses (traversal s.width.toNat s.height.toNat) vs)).setMessage m).setStatus .ok)) := by
  unfold execDecrypt
  rw [withExtractedBits_cases]
  simp [orRaise_eq_next]

/-! ### Operands that are there -/

/-- MSG holds the message, so the operand is the message. -/
theorem messageOperand_of_holds {m : List Byte} (h : HoldsMessage s m) : messageOperand s m.length = some m :=
  (Memory.readRange_eq_some _ _ _ _).2 ⟨rfl, fun i hi => by rw [Nat.zero_add]; exact h i hi⟩

/-- BITBUF holds the bits, so the operand is the bits. -/
theorem bitsOperand_of_holds {i : Nat} {b : List Bool} (h : HoldsBits s i b) : bitsOperand s i b.length = some b :=
  (Memory.readRange_eq_some _ _ _ _).2 ⟨rfl, h⟩

/-- What BITBUF holds after a bit sequence is written. -/
theorem holdsBits_setBitSequence (b : List Bool) : HoldsBits (s.setBitSequence b) 0 b :=
  fun _ hj => Memory.read_writeFrom_inside s.bits 0 b hj

/-- What MSG holds after a message is written. -/
theorem holdsMessage_setMessage (m : List Byte) : HoldsMessage (s.setMessage m) m :=
  fun k hk => by simpa using Memory.read_writeFrom_inside s.msg 0 m hk

/-- A sequence no longer than `W * H` is empty or has rows to go to. -/
theorem eq_nil_or_height_pos {b : List Bool} {W H : Nat} (h : b.length ≤ W * H) : b = [] ∨ 0 < H := by
  rcases Nat.eq_zero_or_pos H with rfl | hH
  · exact .inl (by simpa using h)
  · exact .inr hH

/-- The embedding stage over loaded pixels: it has its accesses, and their staged writes adjust those pixels only. -/
theorem embedAccesses_of_loaded {b : List Bool} (hb : b.length ≤ s.width.toNat * s.height.toNat)
    (hl : BlueLoaded s.image s.height.toNat b.length) :
    ∃ l, embedAccesses s.image s.height.toNat 0 b = some l ∧
      (∀ i x, b[i]? = some x →
        pixRead (commitPort s.image l) (pixelOf i s.height.toNat).1 (pixelOf i s.height.toNat).2 .blue =
          (pixRead s.image (pixelOf i s.height.toNat).1 (pixelOf i s.height.toNat).2 .blue).map (subParity · x)) ∧
      (∀ x y c, (c = .blue → ∀ i, i < b.length → pixelOf i s.height.toNat ≠ (x, y)) →
        pixRead (commitPort s.image l) x y c = pixRead s.image x y c) := by
  obtain ⟨l, h⟩ := (embedAccesses_isSome (p := s.image) (H := s.height.toNat) b 0).2
    fun j hj => by rw [Nat.zero_add]; exact hl j hj
  refine ⟨l, h, ?_⟩
  rcases eq_nil_or_height_pos hb with rfl | hH
  · simp only [embedAccesses, Option.some.injEq] at h
    subst h
    simp [commitPort]
  · simpa using commitPort_embedAccesses hH b 0 l s.image h rfl fun _ _ => rfl

/-- The extracting stage over a loaded grid reads the blue value of each pixel of the traversal order. -/
theorem readBlues_of_loaded (hl : BlueLoaded s.image s.height.toNat (s.width.toNat * s.height.toNat)) :
    ∃ vs, readBlues s.image (traversal s.width.toNat s.height.toNat) = some vs ∧
      vs.length = s.width.toNat * s.height.toNat ∧
      ∀ i, i < s.width.toNat * s.height.toNat →
        pixRead s.image (pixelOf i s.height.toNat).1 (pixelOf i s.height.toNat).2 .blue = vs[i]? := by
  cases h : readBlues s.image (traversal s.width.toNat s.height.toNat) with
  | none =>
    obtain ⟨q, hq, hn⟩ := (readBlues_eq_none _ _).1 h
    rw [traversal_eq_map, List.mem_map] at hq
    obtain ⟨i, hi, rfl⟩ := hq
    have := hl i (List.mem_range.1 hi)
    rw [hn] at this
    cases this
  | some vs =>
    have h' := (readBlues_eq_some _ _ _).1 h
    rw [traversal_eq_map, List.map_map] at h'
    have hlen : vs.length = s.width.toNat * s.height.toNat := by
      have := congrArg List.length h'
      simpa using this.symm
    refine ⟨vs, rfl, hlen, fun i hi => ?_⟩
    have := congrArg (·[i]?) h'
    simp only [List.getElem?_map, List.getElem?_range hi, Option.map_some, Function.comp] at this
    rw [List.getElem?_eq_getElem (by omega)] at this ⊢
    simpa using this

/-- A grid the extracting stage could read is loaded. -/
theorem blueLoaded_of_readBlues {vs : List Byte}
    (h : readBlues s.image (traversal s.width.toNat s.height.toNat) = some vs) :
    BlueLoaded s.image s.height.toNat (s.width.toNat * s.height.toNat) := by
  intro i hi
  cases hx : pixRead s.image (pixelOf i s.height.toNat).1 (pixelOf i s.height.toNat).2 .blue with
  | some v => rfl
  | none =>
    have : pixelOf i s.height.toNat ∈ traversal s.width.toNat s.height.toNat := by
      rw [traversal_eq_map]; exact List.mem_map.2 ⟨i, List.mem_range.2 hi, rfl⟩
    rw [(readBlues_eq_none _ _).2 ⟨_, this, hx⟩] at h
    cases h

/-- What the extracting stage shows an observer of the port: one read for each pixel, in traversal order. -/
theorem readAccesses_traversal {vs : List Byte} {V : Nat → Byte} {W H : Nat}
    (h : readBlues s.image (traversal W H) = some vs)
    (hV : ∀ i, i < W * H → pixRead s.image (pixelOf i H).1 (pixelOf i H).2 .blue = some (V i)) :
    readAccesses (traversal W H) vs = (List.range (W * H)).map fun i => .read (pixelOf i H).1 (pixelOf i H).2 .blue (V i) := by
  rw [traversal_eq_map] at h ⊢
  exact readAccesses_of_values _ _ h fun i hi => hV i (List.mem_range.1 hi)

/-- The embedding stage leaves every location but the blue values of its pixels as it was. -/
theorem embedBits_frame {b : List Bool} (hb : b.length ≤ s.width.toNat * s.height.toNat) (h : embedBits b s = .next t)
    (x y : Nat) (c : Channel) (hc : c = .blue → ∀ i, i < b.length → pixelOf i s.height.toNat ≠ (x, y)) :
    pixRead t.image x y c = pixRead s.image x y c := by
  obtain ⟨l, hl, rfl⟩ := embedBits_cases.1 h
  obtain ⟨l', hl', -, hframe⟩ := embedAccesses_of_loaded hb fun j hj => by
    have := (embedAccesses_isSome b 0).1 ⟨l, hl⟩ j hj
    rwa [Nat.zero_add] at this
  rw [hl'] at hl
  cases hl
  exact hframe x y c hc

/-! ### Faults, and that no command is refused -/

theorem withExtractedBits_fault {k : List Bool → State → Result}
    (h : readBlues s.image (traversal s.width.toNat s.height.toNat) = none) :
    withExtractedBits s k = .fault .unwrittenRead := by
  simp [withExtractedBits, imageWidth, imageHeight, h]

theorem embedBits_fault {b : List Bool} (h : embedAccesses s.image s.height.toNat 0 b = none) :
    embedBits b s = .fault .unwrittenRead := by
  simp [embedBits, imageHeight, h]

/-- An embed meets the pixel the host did not load. -/
theorem embedAccesses_eq_none {p : PixelMemory} {H : Nat} {b : List Bool} {k : Nat} (hk : k < b.length)
    (h : pixRead p (pixelOf k H).1 (pixelOf k H).2 .blue = none) : embedAccesses p H 0 b = none := by
  cases hx : embedAccesses p H 0 b with
  | none => rfl
  | some l =>
    have := (embedAccesses_isSome b 0).1 ⟨l, hx⟩ k hk
    rw [Nat.zero_add, h] at this
    cases this

/-- A command ends in a next state or faults; none is refused. -/
theorem exec_not_refused (i : Instr) (r : Refusal) : exec i s ≠ .refused r := by
  have ho : ∀ {α : Type} (o : Option α) (k : α → Result), (∀ a, k a ≠ .refused r) → orFault o k ≠ .refused r := by
    intro α o k hk; cases o
    · nofun
    · exact hk _
  have hr : ∀ {α : Type} (e : Except StatusCode α) (u : State) (k : α → Result), (∀ a, k a ≠ .refused r) →
      orRaise e u k ≠ .refused r := by
    intro α e u k hk; cases e
    · nofun
    · exact hk _
  have he : ∀ b u, embedBits b u ≠ .refused r := fun b u => ho _ _ fun _ => nofun
  cases i with
  | encode =>
    show execEncode s ≠ _
    unfold execEncode; split
    · nofun
    · exact ho _ _ fun _ => hr _ _ _ fun _ => nofun
  | decode =>
    show execDecode s ≠ _
    unfold execDecode; split
    · nofun
    · split
      · nofun
      · refine ho _ _ fun p => ?_
        unfold decodeMessage; split
        · nofun
        · exact ho _ _ fun _ => nofun
  | sub v b => nofun
  | embed =>
    show execEmbed s ≠ _
    unfold execEmbed; split
    · nofun
    · split
      · nofun
      · exact ho _ _ fun _ => he _ _
  | extract =>
    show execExtract s ≠ _
    unfold execExtract; split
    · nofun
    · exact ho _ _ fun _ => nofun
  | encrypt =>
    show execEncrypt s ≠ _
    unfold execEncrypt; split
    · nofun
    · split
      · nofun
      · exact ho _ _ fun _ => hr _ _ _ fun _ => he _ _
  | decrypt =>
    show execDecrypt s ≠ _
    exact ho _ _ fun _ => hr _ _ _ fun _ => nofun

end Sys2Proof.Machine
end

