-- ==== Sys2Proof/Laws/HostPort.lean ====
section
/-! SUPPORT. The address map, and what each act of the host can do, once. -/

namespace Sys2Proof.Machine

/-! ### The address map (20_memory.md R60 to R63) -/

theorem regionOf_register {o : Nat} (h : o < 0x1000) : regionOf o = .register o := by
  unfold regionOf; rw [if_pos h]

theorem regionOf_message {k : Nat} (h : k ≤ 8190) : regionOf (0x1000 + k) = .message k := by
  unfold regionOf Config.msgCap
  rw [Nat.add_sub_cancel_left, if_neg (by omega), if_pos (by omega)]

theorem regionOf_bitbuf {k : Nat} (h : k < Config.bitCapBytes) : regionOf (bitWindow + k) = .bitbuf k := by
  unfold regionOf Config.msgCap
  rw [Nat.add_sub_cancel_left, if_neg (by unfold bitWindow; omega), if_neg (by unfold bitWindow; omega),
    if_neg (by omega), if_pos ((hasBitByte_iff _).2 h)]

theorem regionOf_reserved {o : Nat} (h : 0x2FFF ≤ o ∧ o < bitWindow ∨ bitWindow + Config.bitCapBytes ≤ o) :
    regionOf o = .reserved := by
  have := bitCapBytes_lower
  unfold bitWindow at h
  unfold regionOf bitWindow Config.msgCap
  rw [if_neg (by omega), if_neg (by omega)]
  split
  · rfl
  · rw [if_neg (by rw [hasBitByte_iff]; omega)]

/-- The message-buffer window has `MSG_CAP` bytes. -/
theorem regionOf_eq_message {o k : Nat} (h : regionOf o = .message k) : k < Config.msgCap := by
  unfold regionOf at h
  split at h
  · cases h
  · split at h
    · next hk => rw [← Region.message.inj h]; exact hk
    · split at h
      · cases h
      · split at h <;> cases h

/-- The bit-buffer window has `BIT_CAP / 8` bytes. -/
theorem regionOf_eq_bitbuf {o k : Nat} (h : regionOf o = .bitbuf k) : k < Config.bitCapBytes := by
  unfold regionOf at h
  split at h
  · cases h
  · split at h
    · cases h
    · split at h
      · cases h
      · split at h
        · next hk => rw [← Region.bitbuf.inj h]; exact (hasBitByte_iff _).1 hk
        · cases h

theorem regAt_eq_none {o : Nat} (h : 0x20 ≤ o) : regAt o = none := by
  unfold regAt; split <;> first | rfl | omega

theorem regAt_regOffset (r : Reg) : regAt (regOffset r) = some r := by cases r <;> rfl

/-- The offset of a byte of the message-buffer window, as an access carries it. -/
theorem messageOffset_toNat {k : Nat} (h : k ≤ 8190) : (BitVec.ofNat 32 (0x1000 + k)).toNat = 0x1000 + k := by
  rw [BitVec.toNat_ofNat]; omega

/-- The offset of a byte of the bit-buffer window, as an access carries it. -/
theorem bitOffset_toNat {k : Nat} (h : k < Config.bitCapBytes) :
    (BitVec.ofNat 32 (bitWindow + k)).toNat = bitWindow + k := by
  have := bitCapBytes_upper
  rw [BitVec.toNat_ofNat]; unfold bitWindow; omega

/-- A read of a named register returns its value and changes nothing. -/
theorem runEvent_rd (s : State) (r : Reg) : runEvent (rd r) s = .next (s.reply (readReg s r)) := by
  cases r <;> rfl

/-! ### What an act of the host can do -/

/-- A store changes one MSG byte, the eight bits of one BITBUF byte, or writable registers. -/
theorem writeData_cases (o : Nat) (v : Word) (s : State) :
    (∃ k, k < Config.msgCap ∧ writeData o v s = { s with msg := Memory.write s.msg k (v.setWidth 8) }) ∨
    (∃ k, k < Config.bitCapBytes ∧
      writeData o v s = { s with bits := Memory.writeFrom s.bits (8 * k) (byteBits (v.setWidth 8)) }) ∨
    ∃ n b w h, writeData o v s = { s with msgLen := n, bitLen := b, width := w, height := h } := by
  unfold writeData
  cases hr : regionOf o with
  | register p =>
    refine .inr (.inr ?_)
    dsimp only
    cases regAt p with
    | none => exact ⟨s.msgLen, s.bitLen, s.width, s.height, rfl⟩
    | some r =>
      cases r with
      | msgLen => exact ⟨v, s.bitLen, s.width, s.height, rfl⟩
      | bitLen => exact ⟨s.msgLen, v, s.width, s.height, rfl⟩
      | width => exact ⟨s.msgLen, s.bitLen, _, s.height, rfl⟩
      | height => exact ⟨s.msgLen, s.bitLen, s.width, _, rfl⟩
      | _ => exact ⟨s.msgLen, s.bitLen, s.width, s.height, rfl⟩
  | message k => exact .inl ⟨k, regionOf_eq_message hr, rfl⟩
  | bitbuf k => exact .inr (.inl ⟨k, regionOf_eq_bitbuf hr, rfl⟩)
  | reserved => exact .inr (.inr ⟨s.msgLen, s.bitLen, s.width, s.height, rfl⟩)

/-- What is behind a next state of an act of the host. -/
theorem runEvent_cases {e : HostEvent} {s t : State} (h : runEvent e s = .next t) :
    (∃ n w i, e = .write 0#32 n w ∧ decode w = .ok i ∧ exec i s = .next t) ∨
    (∃ n w, e = .write 0#32 n w ∧ t = s.setStatus .illegalCommand) ∨
    (∃ o n v, e = .write o n v ∧ o ≠ 0#32 ∧ t = writeData o.toNat v s) ∨
    (∃ o n v, e = .read o n ∧ t = s.reply v) ∨
    (e = .reset ∧ t = resetBlock s) ∨
    (∃ w g, e = .newImage w g ∧ t = newImage w g s) ∨
    (∃ x y c v, e = .loadPixel x y c v ∧ s.image.inGrid x.toNat y.toNat c = true ∧
      t = { s with image := pixWrite s.image x.toNat y.toNat c v }) := by
  cases e with
  | write o n v =>
    simp only [runEvent, hostWrite] at h
    split at h
    · split at h
      · next ho =>
        have ho' : o = 0#32 := BitVec.eq_of_toNat_eq ho
        subst ho'
        unfold runCommand at h
        split at h
        · next i hi => exact .inl ⟨n, v, i, rfl, hi, h⟩
        · exact .inr (.inl ⟨n, v, rfl, (raise_eq_next _ _ _).1 h⟩)
      · next ho =>
        cases h
        refine .inr (.inr (.inl ⟨_, _, _, rfl, ?_, rfl⟩))
        rintro rfl
        exact ho rfl
    · cases h
  | read o n =>
    simp only [runEvent, hostRead] at h
    split at h
    · cases h; exact .inr (.inr (.inr (.inl ⟨_, _, _, rfl, rfl⟩)))
    · cases h
  | reset => cases h; simp
  | newImage w g => cases h; simp
  | loadPixel x y c v =>
    simp only [runEvent, hostLoadPixel, loadPixel?] at h
    split at h
    · next u hu =>
      cases h
      split at hu
      · next hg => cases hu; simp [hg]
      · cases hu
    · cases h

/-- What is behind a next state of a step: the host had nothing to do, or its next act happened. -/
theorem step_cases {s t : State} (h : step s = .next t) :
    (s.script = [] ∧ t = s) ∨ ∃ e l, s.script = e :: l ∧ runEvent e (s.setScript l) = .next t := by
  unfold step at h
  split at h
  · next he => cases h; exact .inl ⟨he, rfl⟩
  · next e l he => exact .inr ⟨e, l, he, h⟩

/-- A run of two scripts in a row. -/
theorem runScript_append (l₁ : List HostEvent) : ∀ (s t : State) (l₂ : List HostEvent),
    runScript s l₁ = .next t → runScript s (l₁ ++ l₂) = runScript t l₂ := by
  induction l₁ with
  | nil => intro s t l₂ h; cases h; rfl
  | cons e l ih =>
    intro s t l₂ h
    simp only [runScript, List.cons_append] at h ⊢
    cases he : runEvent e s with
    | next u => rw [he] at h; exact ih u t l₂ h
    | fault f => rw [he] at h; cases h
    | refused r => rw [he] at h; cases h

end Sys2Proof.Machine
end

