-- ==== Sys2Proof/Laws/PerInstr.lean ====
section
/-! SUPPORT. One family of statements about every command as syntax: its word has the fixed bits of its row of
spec/opcode_table.json. -/

namespace Sys2Proof.Laws.OpcodeRow

/-- The "mask" of the command's row. -/
def mask : Instr → Word
  | .encode => 0xFFFFFFFF#32
  | .decode => 0xFFFFFFFF#32
  | .sub _ _ => 0xFFFFE00F#32
  | .embed => 0xFFFFFFFF#32
  | .extract => 0xFFFFFFFF#32
  | .encrypt => 0xFFFFFFFF#32
  | .decrypt => 0xFFFFFFFF#32

/-- The "match" of the command's row. -/
def fixedBits : Instr → Word
  | .encode => 0x00000001#32
  | .decode => 0x00000002#32
  | .sub _ _ => 0x00000003#32
  | .embed => 0x00000004#32
  | .extract => 0x00000005#32
  | .encrypt => 0x00000006#32
  | .decrypt => 0x00000007#32

/-- The word of the command has the fixed bits of its row. -/
def Statement (i : Instr) : Prop := Sys2Proof.encode i &&& mask i = fixedBits i

theorem encode : Statement .encode := rfl

theorem decode : Statement .decode := rfl

theorem sub (v : Byte) (b : Bool) : Statement (.sub v b) := by
  have hv : 0xFFFFE00F#32 &&& (v.setWidth 32 <<< 4) = 0#32 := by
    apply BitVec.eq_of_getLsbD_eq; intro i hi
    rw [BitVec.getLsbD_and, BitVec.getLsbD_shiftLeft, BitVec.getLsbD_setWidth]
    interval_cases i <;> simp
  have hb : 0xFFFFE00F#32 &&& ((BitVec.ofBool b).setWidth 32 <<< 12) = 0#32 := by cases b <;> rfl
  show (((BitVec.ofBool b).setWidth 32 <<< 12) ||| (v.setWidth 32 <<< 4) ||| 0x3#32) &&& 0xFFFFE00F#32 = 0x3#32
  rw [BitVec.and_comm, BitVec.and_or_distrib_left, BitVec.and_or_distrib_left, hb, hv]
  rfl

theorem embed : Statement .embed := rfl

theorem extract : Statement .extract := rfl

theorem encrypt : Statement .encrypt := rfl

theorem decrypt : Statement .decrypt := rfl

end Sys2Proof.Laws.OpcodeRow
end

