-- ==== Sys2Proof/Tests/Slice0.lean ====
section
/-! SUPPORT. Tests on fixed values, their expected results from the encodings of 30_encoding.md and the vectors V-… of
95_test_vectors.md, and for every statement with hypotheses a witness that meets them. -/

namespace Sys2Proof.Tests

open Sys2Proof.Machine

/-! ### Small states -/

/-- An image whose blue values are the given columns, from x = 0 on, each from y = 0 down; nothing else is loaded. -/
def blueImage (W H : Dim) (blues : List Byte) : PixelMemory :=
  ((traversal W.toNat H.toNat).zip blues).foldl (fun p q => pixWrite p q.1.1 q.1.2 .blue q.2)
    { width := W, height := H, cells := [] }

/-- The state after reset with a loaded image and WIDTH and HEIGHT set to match it. -/
def withImage (W H : Dim) (blues : List Byte) : State :=
  { State.reset with image := blueImage W H blues, width := W, height := H }

/-- The state with a message in MSG and MSG_LEN. -/
def withMessage (m : List Byte) (s : State) : State := s.setMessage m

/-- The state with a bit sequence in BITBUF and BIT_LEN, written as in 95_test_vectors.md. -/
def withBits (b : String) (s : State) : State := s.setBitSequence (b.toList.map (· == '1'))

/-- The blue values of a grid, in traversal order. -/
def bluesOf (p : PixelMemory) (W H : Nat) : Option (List Byte) := readBlues p (traversal W H)

/-- What a test of a command looks at: the status, and whether a check of the next state passes. -/
def ends (i : Instr) (s : State) (c : StatusCode) (p : State → Bool) : Bool :=
  nextAnd (exec i s) fun t => t.status == c && p t

/-! ### The written form (30_encoding.md R87) -/

theorem test_wf_refuses_value_256 : (AsmLine.sub 256 0).wf = false := by decide
theorem test_wf_refuses_bit_2 : (AsmLine.sub 0 2).wf = false := by decide
theorem test_wf_admits_the_largest_operands : (AsmLine.sub 255 1).wf = true := by decide
theorem test_assemble_refuses_value_256 : assemble (.sub 256 0) = none := by decide
theorem test_assemble_sub : assemble (.sub 255 1) = some 0x1FF3#32 := by decide

/-! ### Decoding: the words of 30_encoding.md R81 and R82 bit by bit, and V-CMD-1 to V-CMD-10 -/

theorem test_decode_encode : decode 0b00000000000000000000000000000001#32 = .ok .encode := by decide
theorem test_decode_decode : decode 0b00000000000000000000000000000010#32 = .ok .decode := by decide
theorem test_decode_sub_254_1 : decode 0b00000000000000000001111111100011#32 = .ok (.sub 254#8 true) := by decide
theorem test_decode_sub_128_0 : decode 0b00000000000000000000100000000011#32 = .ok (.sub 128#8 false) := by decide
theorem test_decode_embed : decode 0b00000000000000000000000000000100#32 = .ok .embed := by decide
theorem test_decode_extract : decode 0b00000000000000000000000000000101#32 = .ok .extract := by decide
theorem test_decode_encrypt : decode 0b00000000000000000000000000000110#32 = .ok .encrypt := by decide
theorem test_decode_decrypt : decode 0b00000000000000000000000000000111#32 = .ok .decrypt := by decide

theorem test_decode_illegal_words :
    [0x0#32, 0x11#32, 0x1FFF3#32, 0x8#32, 0xF#32, 0x80000001#32].map decode =
      [.error .reservedOpcode, .error .reservedBits, .error .reservedBits, .error .reservedOpcode,
        .error .reservedOpcode, .error .reservedBits] := by decide

theorem test_decodeTableWord_sub : decodeTableWord 32 3 = some (.sub 0#8 false) := by decide
theorem test_decodeTableWord_reserved : decodeTableWord 32 8 = none := by decide

/-! ### The functions (V-UTIL) -/

/-- V-UTIL-2. -/
theorem test_bytesToBits : bytesToBits [0x48#8, 0x69#8] = ("0100100001101001".toList.map (· == '1')) := by decide
/-- V-UTIL-7. -/
theorem test_u16ToBits : u16ToBits 65528 = ("1111111111111000".toList.map (· == '1')) := by decide
/-- V-UTIL-9. -/
theorem test_bitsToU16 : bitsToU16 ("0000000000010000".toList.map (· == '1')) = 16 := by decide
/-- V-UTIL-10. -/
theorem test_bitsToBytes : bitsToBytes ("1010010111111111".toList.map (· == '1')) = [0xA5#8, 0xFF#8] := by decide

/-! ### The commands -/

/-- V-ENC-9. -/
theorem test_encode : ends .encode (withMessage [0x80#8, 0x01#8] State.reset) .ok (fun t => t.bitLen == 32#32 &&
    bitsOperand t 0 32 == some ("00000000000100001000000000000001".toList.map (· == '1'))) = true := by decide

/-- V-ENC-7: the product `8 * MSG_LEN` does not wrap. -/
theorem test_encode_product_exact :
    ends .encode { State.reset with msgLen := 0x20000000#32 } .messageTooLong (fun t => t.bitLen == 0#32) = true := by
  decide

/-- V-DEC-7. -/
theorem test_decode : ends .decode (withBits "00000000000100001000000000000001" State.reset) .ok (fun t =>
    t.msgLen == 2#32 && messageOperand t 2 == some [0x80#8, 0x01#8]) = true := by decide

/-- V-DEC-12: positions beyond the message bits may be unwritten. -/
theorem test_decode_ignores_unwritten_tail :
    ends .decode { withBits "000000000000100001000001" State.reset with bitLen := 40#32 } .ok (fun t =>
      t.msgLen == 1#32 && messageOperand t 1 == some [0x41#8]) = true := by decide

/-- V-SUB-5: incremented, not decremented. -/
theorem test_sub_3_0 : ends (.sub 3#8 false) State.reset .ok (fun t => t.subResult == 4#8) = true := by decide

/-- V-SUB-10: the wrap. -/
theorem test_sub_255_0 : ends (.sub 255#8 false) { State.reset with subResult := 7#8 } .ok
    (fun t => t.subResult == 0#8) = true := by decide

/-- V-EMB-2. -/
theorem test_embed : ends .embed (withBits "0111" (withImage 2#16 2#16 [255#8, 254#8, 7#8, 8#8])) .ok (fun t =>
    bluesOf t.image 2 2 == some [0#8, 255#8, 7#8, 9#8]) = true := by decide

/-- V-EMB-4: one bit more than the image has pixels. -/
theorem test_embed_capacity : ends .embed (withBits "1111111" (withImage 2#16 3#16 (List.replicate 6 0#8))) .imageTooSmall
    (fun t => bluesOf t.image 2 3 == some (List.replicate 6 0#8)) = true := by decide

/-- V-EXT-2: column-major. -/
theorem test_extract : ends .extract (withImage 3#16 2#16 [1#8, 2#8, 3#8, 5#8, 8#8, 13#8]) .ok (fun t =>
    t.bitLen == 6#32 && bitsOperand t 0 6 == some ("101101".toList.map (· == '1'))) = true := by decide

/-- V-EXT-3. -/
theorem test_extract_empty : ends .extract (withImage 0#16 7#16 []) .ok (fun t =>
    t.bitLen == 0#32 && t.portLog == []) = true := by decide

/-- V-PIPE-1. -/
theorem test_encrypt : ends .encrypt (withMessage [0x41#8] (withImage 4#16 6#16 (List.replicate 24 0#8))) .ok (fun t =>
    bluesOf t.image 4 6 == some [0#8, 0#8, 0#8, 0#8, 0#8, 0#8, 0#8, 0#8, 0#8, 0#8, 0#8, 0#8,
      1#8, 0#8, 0#8, 0#8, 0#8, 1#8, 0#8, 0#8, 0#8, 0#8, 0#8, 1#8]) = true := by decide

/-- V-PIPE-4: MessageTooLong before ImageTooSmall. -/
theorem test_encrypt_order : ends .encrypt { State.reset with msgLen := 8192#32 } .messageTooLong (fun _ => true) = true := by
  decide

/-- V-PIPE-9: the image of V-PIPE-1. -/
theorem test_decrypt : ends .decrypt (withImage 4#16 6#16 [0#8, 0#8, 0#8, 0#8, 0#8, 0#8, 0#8, 0#8, 0#8, 0#8, 0#8, 0#8,
    1#8, 0#8, 0#8, 0#8, 0#8, 1#8, 0#8, 0#8, 0#8, 0#8, 0#8, 1#8]) .ok (fun t => t.msgLen == 1#32 && t.bitLen == 0#32 &&
      messageOperand t 1 == some [0x41#8]) = true := by decide

/-- V-PIPE-8: the prefix 65535. -/
theorem test_decrypt_malformed : ends .decrypt (withImage 4#16 4#16 (List.replicate 16 1#8)) .malformedData
    (fun t => t.msgLen == 0#32 && t.msg == []) = true := by decide

/-! ### Faults, the host port and reset -/

/-- V-ENC-10. -/
theorem test_encode_unwritten_faults :
    faultsWith (exec .encode { State.reset with msgLen := 1#32 }) .unwrittenRead = true := by decide

/-- 93_implementation_defined.md U12: HEIGHT larger than the image. -/
theorem test_extract_outside_image_faults :
    faultsWith (exec .extract { withImage 1#16 2#16 [4#8, 5#8] with height := 3#16 }) .unwrittenRead = true := by decide

/-- 93_implementation_defined.md U14 and U15. -/
theorem test_unsupported_accesses_refused :
    ([HostEvent.read 0x004#32 1, .write 0x00A#32 4 0#32, .read 0x1000#32 4, .write 0x10000000#32 2 0#32].all fun e =>
      refusesWith (runEvent e State.reset) .unsupportedAccess) = true := by decide

/-- V-RST-1: what the host reads after reset. -/
theorem test_reads_after_reset :
    nextAnd (runScript State.reset [rd .status, rd .msgLen, rd .bitLen, rd .width, rd .height, rd .subResult, rd .cmd,
      .read 0x020#32 4]) (fun t => t.replies == List.replicate 8 0#32) = true := by decide

/-- 95_test_vectors.md P3: `loadbits "0000000000000011101"`, whose bytes are 00 03 A0. -/
theorem test_loadbits_pads_with_zeros :
    nextAnd (runScript State.reset (loadbits ("0000000000000011101".toList.map (· == '1')) ++
      [rd .bitLen, rdbBits 0, rdbBits 1, rdbBits 2])) (fun t => t.replies == [19#32, 0x00#32, 0x03#32, 0xA0#32]) = true := by
  decide

/-- The command placed by `withFetchWord` is the one the next step runs: V-SUB-9. -/
theorem test_withFetchWord_runs_sub :
    nextAnd (step (State.reset.withFetchWord 32 0x1FE3)) (fun t => t.subResult == 255#8 && t.script == []) = true := by decide

/-- V-CMD-3 as a host write. -/
theorem test_illegal_word_sets_status :
    nextAnd (step (State.reset.withFetchWord 32 0x11)) (fun t => t.status == .illegalCommand && t.bitLen == 0#32) = true := by
  decide

/-! ### Witnesses: states and operands that meet the hypotheses of the statements, clause by clause -/

/-- "A" in MSG and encoded in BITBUF, on a 4 by 6 image of zeros: 24 bits, exactly the capacity (V-PIPE-1). -/
def ready : State :=
  withBits "000000000000100001000001" (withMessage [0x41#8] (withImage 4#16 6#16 (List.replicate 24 0#8)))

/-- The 24 bits of "A". -/
def readyBits : List Bool := "000000000000100001000001".toList.map (· == '1')

/-- An image that hides "A" in exactly its 24 pixels (V-PIPE-1). -/
def hidden : State := withImage 4#16 6#16 [0#8, 0#8, 0#8, 0#8, 0#8, 0#8, 0#8, 0#8, 0#8, 0#8, 0#8, 0#8,
  1#8, 0#8, 0#8, 0#8, 0#8, 1#8, 0#8, 0#8, 0#8, 0#8, 0#8, 1#8]

/-- "A" in MSG and encoded in BITBUF, on a column of 23 pixels: one too few (95_test_vectors.md P3). -/
def tooSmall : State :=
  withBits "000000000000100001000001" (withMessage [0x41#8] (withImage 1#16 23#16 (List.replicate 23 0#8)))

theorem bits_fit {n : Nat} (h : n ≤ 65544) : n ≤ Config.bitCap := Nat.le_trans h bitCap_lower

theorem ready_holdsMessage : HoldsMessage ready [0x41#8] := by unfold HoldsMessage; decide

theorem ready_holdsBits : HoldsBits ready 0 readyBits := by unfold HoldsBits; decide

theorem ready_blueLoaded : BlueLoaded ready.image 6 24 := by unfold BlueLoaded; decide

theorem hidden_blueLoaded : BlueLoaded hidden.image 6 24 := by unfold BlueLoaded; decide

theorem witness_EncodeOfDecodeIsTheWord : decode 0x1FF3#32 = .ok (.sub 255#8 true) := by decide

theorem witness_DecodeCmdOnEveryWord : ∀ i, decode 0#32 ≠ .ok i := by
  intro i; rw [show decode 0#32 = .error .reservedOpcode by decide]; exact nofun

theorem witness_CmdWriteRunsTheDecodedCommand :
    ((State.reset.withFetchWord 32 7).script = .write 0#32 4 7#32 :: [] ∧ decode 7#32 = .ok .decrypt) ∧
    ((State.reset.withFetchWord 32 0x2003).script = .write 0#32 4 0x2003#32 :: [] ∧
      decode 0x2003#32 = .error .reservedBits) ∧
    (State.reset.setScript [.read 0#32 4]).script = .read 0#32 4 :: [] := by decide

theorem witness_IllegalWordsOnlySetStatus :
    (State.reset.withFetchWord 32 0).script = .write 0#32 4 0#32 :: [] ∧
    (0xFFFFFFF0#32).toNat % 16 = 0 ∧ 8 ≤ (8#32).toNat % 16 ∧ 8 ≤ (15#32).toNat % 16 ∧
    ((0x2003#32).toNat % 16 = 3 ∧ 2 ^ 13 ≤ (0x2003#32).toNat) ∧
    ((0x11#32).toNat % 16 ≠ 3 ∧ 16 ≤ (0x11#32).toNat) := by decide

theorem witness_BytesToBitsIsMsbFirst : 7 ≤ 7 := by decide

theorem witness_PrefixIsSixteenBitsBigEndian :
    65535 < 65536 ∧ 15 < 16 ∧ (List.replicate 16 true).length = 16 := by decide

theorem witness_BitsToBytesIsMsbFirst :
    (List.replicate 16 true).length % 8 = 0 ∧ 1 < (List.replicate 16 true).length / 8 := by decide

theorem witness_BitAndByteFunctionsAreInverse :
    (List.replicate 16 true).length % 8 = 0 ∧ 65535 < 65536 ∧ (List.replicate 16 true).length = 16 := by decide

theorem witness_EncodedSequenceShape : codecEncode [0x41#8] = .ok readyBits ∧ 0 < [0x41#8].length ∧ 7 ≤ 7 := by decide

theorem witness_TrailingBitsAreIgnored :
    16 ≤ (readyBits ++ [true]).length ∧ 16 ≤ (readyBits ++ [false, false]).length ∧
    (readyBits ++ [true]).take (16 + bitsToU16 ((readyBits ++ [true]).take 16)) =
      (readyBits ++ [false, false]).take (16 + bitsToU16 ((readyBits ++ [true]).take 16)) ∧
    ((readyBits ++ [true]).length - 16 < bitsToU16 ((readyBits ++ [true]).take 16) ↔
      (readyBits ++ [false, false]).length - 16 < bitsToU16 ((readyBits ++ [true]).take 16)) := by decide

theorem witness_CodecRoundTrip :
    (List.replicate 8191 0#8).length ≤ 8191 ∧ 8192 ≤ (List.replicate 8192 0#8).length ∧
    codecDecode readyBits = .ok [0x41#8] := by
  rw [List.length_replicate, List.length_replicate]; decide

theorem witness_LawsOfSub : (subParity 255#8 false).toNat < (255#8).toNat := by decide

theorem witness_TraversalIsColumnMajor : 0 < 3 ∧ 5 < 2 * 3 ∧ 1 < 2 ∧ 2 < 3 ∧ pixelOf 5 3 = (1, 2) := by decide

/-- One bit, already at its parity, on a column of two pixels: the second pixel lies beyond the sequence. -/
theorem witness_EmbedImgIsNonDestructive :
    (∃ P', embedImg [false] (fun _ _ _ => 0#8) 1 2 = .ok P') ∧ Channel.alpha ≠ .blue ∧ [false].length ≤ 1 ∧ 1 < 1 * 2 ∧
    [false][0]? = some false ∧ parity 0#8 = false := ⟨⟨_, rfl⟩, by decide⟩

theorem witness_ExtractUndoesEmbed :
    (∃ P', embedImg [true] (fun _ _ _ => 0#8) 1 2 = .ok P') ∧ [true].length ≤ 1 ∧ 1 < 1 * 2 := ⟨⟨_, rfl⟩, by decide⟩

theorem witness_EncodeCompletes :
    ready.msgLen.toNat = [0x41#8].length ∧ 8 * [0x41#8].length < 65536 ∧ HoldsMessage ready [0x41#8] :=
  ⟨by decide, by decide, ready_holdsMessage⟩

/-- The longest message meets them too. -/
theorem witness_EncodeCompletes_longest (m : List Byte) (h : m.length = 8191) :
    (withMessage m State.reset).msgLen.toNat = m.length ∧ 8 * m.length < 65536 ∧
      HoldsMessage (withMessage m State.reset) m := by
  refine ⟨?_, by omega, fun k hk => ?_⟩
  · show (BitVec.ofNat 32 m.length).toNat = _
    rw [BitVec.toNat_ofNat]; omega
  · have := Memory.read_writeFrom_inside State.reset.msg 0 m hk
    rwa [Nat.zero_add] at this

theorem witness_DecodeCompletes :
    ready.bitLen.toNat ≤ Config.bitCap ∧ (readyBits.take 16).length = 16 ∧ HoldsBits ready 0 (readyBits.take 16) ∧
    (readyBits.drop 16).length = bitsToU16 (readyBits.take 16) ∧ (readyBits.drop 16).length % 8 = 0 ∧
    16 + (readyBits.drop 16).length ≤ ready.bitLen.toNat ∧ HoldsBits ready 16 (readyBits.drop 16) :=
  ⟨bits_fit (by decide), by decide, by unfold HoldsBits; decide, by decide, by decide, by decide,
    by unfold HoldsBits; decide⟩

/-- As many bits as pixels. -/
theorem witness_EmbedCompletes :
    readyBits.length = ready.bitLen.toNat ∧ readyBits.length ≤ Config.bitCap ∧
    readyBits.length ≤ ready.width.toNat * ready.height.toNat ∧ HoldsBits ready 0 readyBits ∧
    BlueLoaded ready.image ready.height.toNat readyBits.length ∧ readyBits[0]? = some false :=
  ⟨by decide, bits_fit (by decide), by decide, ready_holdsBits, ready_blueLoaded, by decide⟩

theorem witness_ExtractCompletes :
    ready.width.toNat * ready.height.toNat ≤ Config.bitCap ∧
    BlueLoaded ready.image ready.height.toNat (ready.width.toNat * ready.height.toNat) :=
  ⟨bits_fit (by decide), ready_blueLoaded⟩

/-- `16 + 8n = W * H`. -/
theorem witness_EncryptCompletes :
    ready.msgLen.toNat = [0x41#8].length ∧ 8 * [0x41#8].length < 65536 ∧
    16 + 8 * [0x41#8].length ≤ ready.width.toNat * ready.height.toNat ∧ HoldsMessage ready [0x41#8] ∧
    BlueLoaded ready.image ready.height.toNat (16 + 8 * [0x41#8].length) :=
  ⟨by decide, by decide, by decide, ready_holdsMessage, ready_blueLoaded⟩

theorem witness_DecryptCompletes :
    (readyBits.take 16 ++ readyBits.drop 16 ++ []).length = hidden.width.toNat * hidden.height.toNat ∧
    (∀ i, i < hidden.width.toNat * hidden.height.toNat →
      (pixRead hidden.image (pixelOf i hidden.height.toNat).1 (pixelOf i hidden.height.toNat).2 .blue).map parity =
        (readyBits.take 16 ++ readyBits.drop 16 ++ [])[i]?) ∧
    (readyBits.take 16).length = 16 ∧ (readyBits.drop 16).length = bitsToU16 (readyBits.take 16) ∧
    (readyBits.drop 16).length % 8 = 0 := by decide

/-- A sequence the codec decodes, and one it refuses. -/
theorem witness_DecodeRefinesTheCodec :
    (readyBits.length = ready.bitLen.toNat ∧ readyBits.length ≤ Config.bitCap ∧ HoldsBits ready 0 readyBits) ∧
    codecDecode readyBits = .ok [0x41#8] ∧ codecDecode (List.replicate 16 true) = .error .malformedData :=
  ⟨⟨by decide, bits_fit (by decide), ready_holdsBits⟩, by decide, by decide⟩

theorem witness_EmbedRefinesEmbedImg :
    (readyBits.length = ready.bitLen.toNat ∧ readyBits.length ≤ Config.bitCap ∧ HoldsBits ready 0 readyBits) ∧
    (∀ x y c v, pixRead ready.image x y c = some v →
      (fun x y c => (pixRead ready.image x y c).getD 0#8) x y c = v) ∧
    (∃ P', embedImg readyBits (fun x y c => (pixRead ready.image x y c).getD 0#8) 4 6 = .ok P') ∧
    BlueLoaded ready.image ready.height.toNat readyBits.length :=
  ⟨⟨by decide, bits_fit (by decide), ready_holdsBits⟩, fun _ _ _ _ h => by simp only [h, Option.getD_some], ⟨_, rfl⟩,
    ready_blueLoaded⟩

/-- One bit too many, on a column of 23 pixels (95_test_vectors.md P3): the clause where `embed_img` fails. -/
theorem witness_EmbedRefinesEmbedImg_error :
    readyBits.length = tooSmall.bitLen.toNat ∧ readyBits.length ≤ Config.bitCap ∧ HoldsBits tooSmall 0 readyBits ∧
    (∀ x y c v, pixRead tooSmall.image x y c = some v →
      (fun x y c => (pixRead tooSmall.image x y c).getD 0#8) x y c = v) ∧
    embedImg readyBits (fun x y c => (pixRead tooSmall.image x y c).getD 0#8) tooSmall.width.toNat
      tooSmall.height.toNat = .error .imageTooSmall :=
  ⟨by decide, bits_fit (by decide), by unfold HoldsBits; decide,
    fun _ _ _ _ h => by simp only [h, Option.getD_some], rfl⟩

theorem witness_ExtractRefinesExtractImg :
    ready.width.toNat * ready.height.toNat ≤ Config.bitCap ∧
    BlueLoaded ready.image ready.height.toNat (ready.width.toNat * ready.height.toNat) ∧
    (∀ x y c v, pixRead ready.image x y c = some v →
      (fun x y c => (pixRead ready.image x y c).getD 0#8) x y c = v) :=
  ⟨bits_fit (by decide), ready_blueLoaded, fun _ _ _ _ h => by simp only [h, Option.getD_some]⟩

/-- A DECRYPT state that shares pixel memory, WIDTH and HEIGHT with an ENCRYPT's next state is that state itself. -/
theorem witness_PipelineRoundTrip :
    [0x41#8].length ≤ 8191 ∧ ready.msgLen.toNat = [0x41#8].length ∧ HoldsMessage ready [0x41#8] ∧
    16 + 8 * [0x41#8].length ≤ ready.width.toNat * ready.height.toNat ∧
    BlueLoaded ready.image ready.height.toNat (ready.width.toNat * ready.height.toNat) ∧
    ends .encrypt ready .ok (fun _ => true) = true :=
  ⟨by decide, by decide, ready_holdsMessage, by decide, ready_blueLoaded, by decide⟩

/-- ENCODE fails; ENCODE and then EMBED succeed; EXTRACT and then DECODE end; BITBUF is too small; an unwritten byte and too
small an image. -/
theorem witness_PipelinesAgreeWithSeparateCommands :
    ends .encode { ready with msgLen := 8192#32 } .messageTooLong (fun _ => true) = true ∧
    ends .encode ready .ok (fun t => ends .embed t .ok fun _ => true) = true ∧
    (hidden.width.toNat * hidden.height.toNat ≤ Config.bitCap ∧
      ends .extract hidden .ok (fun t => ends .decode t .ok fun _ => true) = true) ∧
    Config.bitCap < ({ State.reset with width := 65535#16, height := 65535#16 }).width.toNat *
      ({ State.reset with width := 65535#16, height := 65535#16 }).height.toNat ∧
    (8 * ({ State.reset with msgLen := 1#32 }).msgLen.toNat < 65536 ∧
      0 < ({ State.reset with msgLen := 1#32 }).msgLen.toNat ∧ Memory.read State.reset.msg 0 = none ∧
      State.reset.width.toNat * State.reset.height.toNat < 16 + 8 * ({ State.reset with msgLen := 1#32 }).msgLen.toNat) :=
  ⟨by decide, by decide, ⟨bits_fit (by decide), by decide⟩, Nat.lt_of_le_of_lt bitCap_upper (by decide), by decide⟩

theorem witness_PipelinesIgnoreBitbuf :
    ends .encrypt ready .ok (fun _ => true) = true ∧ ends .decrypt hidden .ok (fun _ => true) = true ∧
    faultsWith (exec .encrypt { ready with msg := [] }) .unwrittenRead = true ∧
    faultsWith (exec .decrypt { hidden with height := 7#16 }) .unwrittenRead = true := by decide

theorem witness_EmbedPortOrder :
    ends .embed ready .ok (fun _ => true) = true ∧
    ∀ i, i < ready.bitLen.toNat → Memory.read ready.bits i = some (readyBits.getD i false) ∧
      pixRead ready.image (pixelOf i ready.height.toNat).1 (pixelOf i ready.height.toNat).2 .blue = some 0#8 := by decide

theorem witness_ExtractPortOrder :
    ends .extract ready .ok (fun _ => true) = true ∧
    ∀ i, i < ready.width.toNat * ready.height.toNat →
      pixRead ready.image (pixelOf i ready.height.toNat).1 (pixelOf i ready.height.toNat).2 .blue = some 0#8 := by decide

/-- A DECRYPT that ends with OK, and one that ends with MalformedData (V-PIPE-8). -/
theorem witness_DecryptPortOrder :
    (ends .decrypt hidden .ok (fun _ => true) = true ∧
      ∀ i, i < hidden.width.toNat * hidden.height.toNat →
        pixRead hidden.image (pixelOf i hidden.height.toNat).1 (pixelOf i hidden.height.toNat).2 .blue =
          some (if readyBits.getD i false then 1#8 else 0#8)) ∧
    (ends .decrypt (withImage 4#16 4#16 (List.replicate 16 1#8)) .malformedData (fun _ => true) = true ∧
      ∀ i, i < 4 * 4 → pixRead (withImage 4#16 4#16 (List.replicate 16 1#8)).image (pixelOf i 4).1 (pixelOf i 4).2 .blue =
        some 1#8) := by decide

/-- `BIT_LEN = BIT_CAP + 1` (V-DEC-9), and the largest image. -/
theorem witness_CapacityExceededExactlyWhen :
    Config.bitCap < ({ State.reset with bitLen := BitVec.ofNat 32 (Config.bitCap + 1) }).bitLen.toNat ∧
    Config.bitCap < ({ State.reset with width := 65535#16, height := 65535#16 }).width.toNat *
      ({ State.reset with width := 65535#16, height := 65535#16 }).height.toNat := by
  refine ⟨?_, Nat.lt_of_le_of_lt bitCap_upper (by decide)⟩
  have := bitCap_upper
  show Config.bitCap < (BitVec.ofNat 32 (Config.bitCap + 1)).toNat
  rw [BitVec.toNat_ofNat]; omega

theorem witness_MessageTooLongExactlyWhen :
    65536 ≤ 8 * ({ State.reset with msgLen := 8192#32 }).msgLen.toNat ∧
    ¬65536 ≤ 8 * ({ State.reset with msgLen := 8191#32 }).msgLen.toNat := by decide

/-- One bit too many, for EMBED (V-EMB-4) and for ENCRYPT (95_test_vectors.md P3). -/
theorem witness_ImageTooSmallExactlyWhen :
    (({ State.reset with bitLen := 7#32, width := 2#16, height := 3#16 }).bitLen.toNat ≤ Config.bitCap ∧ 2 * 3 < 7) ∧
    (8 * ({ State.reset with msgLen := 1#32, width := 1#16, height := 23#16 }).msgLen.toNat < 65536 ∧
      1 * 23 < 16 + 8 * ({ State.reset with msgLen := 1#32, width := 1#16, height := 23#16 }).msgLen.toNat) :=
  ⟨⟨bits_fit (by decide), by decide⟩, by decide⟩

/-- The three causes of R186 at their boundaries: 15 bits, a prefix of 3 and one of 65535, and 7 bits after a prefix of 8. -/
theorem witness_DecodeMalformedExactlyWhen :
    (({ State.reset with bitLen := 15#32 }).bitLen.toNat ≤ Config.bitCap ∧
      (16 ≤ ({ State.reset with bitLen := 15#32 }).bitLen.toNat → HoldsBits State.reset 0 (List.replicate 16 true)) ∧
      ({ State.reset with bitLen := 15#32 }).bitLen.toNat < 16) ∧
    (({ ready with bitLen := 23#32 }).bitLen.toNat ≤ Config.bitCap ∧ (readyBits.take 16).length = 16 ∧
      HoldsBits { ready with bitLen := 23#32 } 0 (readyBits.take 16) ∧
      ({ ready with bitLen := 23#32 }).bitLen.toNat - 16 < bitsToU16 (readyBits.take 16)) ∧
    bitsToU16 (List.replicate 14 false ++ [true, true]) % 8 ≠ 0 ∧ bitsToU16 (List.replicate 16 true) % 8 ≠ 0 :=
  ⟨⟨bits_fit (by decide), fun h => absurd h (by decide), by decide⟩,
    ⟨bits_fit (by decide), by decide, by unfold HoldsBits; decide, by decide⟩, by decide, by decide⟩

/-- V-PIPE-7 (15 pixels), V-PIPE-8 (the prefix 65535), and an image that loads every bit. -/
theorem witness_DecryptMalformedExactlyWhen :
    ((List.replicate 15 true).length =
        (withImage 3#16 5#16 (List.replicate 15 1#8)).width.toNat * (withImage 3#16 5#16 (List.replicate 15 1#8)).height.toNat ∧
      (∀ i, i < (List.replicate 15 true).length →
        (pixRead (withImage 3#16 5#16 (List.replicate 15 1#8)).image (pixelOf i 5).1 (pixelOf i 5).2 .blue).map parity =
          (List.replicate 15 true)[i]?) ∧ (List.replicate 15 true).length < 16) ∧
    bitsToU16 ((List.replicate 16 true).take 16) % 8 ≠ 0 ∧
    (readyBits.take 23).length - 16 < bitsToU16 ((readyBits.take 23).take 16) := by decide

/-- One unwritten location for each clause. -/
theorem witness_UnwrittenReadsFault :
    (8 * ({ ready with msg := [] }).msgLen.toNat < 65536 ∧ 0 < ({ ready with msg := [] }).msgLen.toNat ∧
      Memory.read ({ ready with msg := [] }).msg 0 = none ∧
      16 + 8 * ready.msgLen.toNat ≤ ready.width.toNat * ready.height.toNat) ∧
    (16 ≤ ({ State.reset with bitLen := 16#32 }).bitLen.toNat ∧
      ({ State.reset with bitLen := 16#32 }).bitLen.toNat ≤ Config.bitCap ∧ 15 < 16 ∧
      Memory.read State.reset.bits 15 = none) ∧
    ((readyBits.take 16).length = 16 ∧ HoldsBits { ready with bits := ready.bits.take 23 } 0 (readyBits.take 16) ∧
      ready.bitLen.toNat ≤ Config.bitCap ∧ bitsToU16 (readyBits.take 16) % 8 = 0 ∧
      16 + bitsToU16 (readyBits.take 16) ≤ ready.bitLen.toNat ∧ 7 < bitsToU16 (readyBits.take 16) ∧
      Memory.read ({ ready with bits := ready.bits.take 23 }).bits (16 + 7) = none) ∧
    (23 < ready.bitLen.toNat ∧ ready.bitLen.toNat ≤ ready.width.toNat * ready.height.toNat ∧
      Memory.read ({ ready with bits := ready.bits.take 23 }).bits 23 = none) ∧
    (23 < ready.width.toNat * ready.height.toNat ∧ 23 < 16 + 8 * ready.msgLen.toNat ∧
      pixRead { ready.image with height := 5#16 } (pixelOf 23 ready.height.toNat).1 (pixelOf 23 ready.height.toNat).2 .blue =
        none) :=
  ⟨by decide, ⟨by decide, bits_fit (by decide), by decide⟩,
    ⟨by decide, by unfold HoldsBits; decide, bits_fit (by decide), by decide⟩, by decide, by decide⟩

theorem witness_OversizedDimensionsFault :
    0 < ({ ready with width := 5#16 }).width.toNat ∧ 0 < ready.height.toNat ∧
    ready.image.width.toNat < ({ ready with width := 5#16 }).width.toNat ∧
    ready.image.height.toNat < ({ ready with height := 7#16 }).height.toNat ∧
    ({ ready with width := 5#16 }).width.toNat * ready.height.toNat ≤ Config.bitCap :=
  ⟨by decide, by decide, by decide, by decide, bits_fit (by decide)⟩

theorem witness_FailureChangesOnlyStatus :
    nextAnd (runCommand 7#32 (withImage 4#16 4#16 (List.replicate 16 1#8))) (fun t => t.status != .ok) = true ∧
    nextAnd (runCommand 0#32 ready) (fun t => t.status != .ok) = true := by decide

theorem witness_StatusCodesAndWhoRaisesThem :
    ends .encode { ready with msgLen := 8192#32 } .messageTooLong (fun _ => true) = true ∧
    ends .embed { ready with height := 5#16 } .imageTooSmall (fun _ => true) = true ∧
    ends .decode { ready with bitLen := 15#32 } .malformedData (fun _ => true) = true ∧
    (∀ i, decode 15#32 ≠ .ok i) :=
  ⟨by decide, by decide, by decide,
    by intro i; rw [show decode 15#32 = .error .reservedOpcode by decide]; exact nofun⟩

/-- Every command ends, and for each clause the first location beyond those the command writes. -/
theorem witness_CommandWriteSets :
    ([Instr.encode, .decode, .sub 3#8 false, .embed, .extract, .encrypt].all fun i =>
      ends i ready .ok fun _ => true) = true ∧
    ends .decrypt hidden .ok (fun _ => true) = true ∧
    ends .encode { ready with msgLen := 8192#32 } .messageTooLong (fun _ => true) = true ∧
    16 + 8 * ready.msgLen.toNat ≤ 24 ∧ ready.width.toNat * ready.height.toNat ≤ 24 ∧
    ((readyBits.take 16).length = 16 ∧ HoldsBits ready 0 (readyBits.take 16) ∧ bitsToU16 (readyBits.take 16) / 8 ≤ 1 ∧
      ∀ j, j < 16 →
        (pixRead hidden.image (pixelOf j hidden.height.toNat).1 (pixelOf j hidden.height.toNat).2 .blue).map parity =
          (readyBits.take 16)[j]?) ∧
    (Channel.blue = .blue → ∀ i, i < ready.bitLen.toNat → pixelOf i ready.height.toNat ≠ (4, 0)) ∧
    (Channel.blue = .blue → ∀ i, i < 16 + 8 * ready.msgLen.toNat → pixelOf i ready.height.toNat ≠ (4, 0)) ∧
    (Channel.red = .blue → ∀ i, i < ready.bitLen.toNat → pixelOf i ready.height.toNat ≠ (0, 0)) :=
  ⟨by decide, by decide, by decide, by decide, by decide,
    ⟨by decide, by unfold HoldsBits; decide, by decide, by decide⟩, by decide, by decide, nofun⟩

theorem witness_HostReadsRepeatAndWritesAreIdempotent :
    nextAnd (runEvent (.read 0x1000#32 1) ready) (fun t => t.replies == [0x41#32]) = true ∧
    0x1000#32 ≠ 0#32 ∧ nextAnd (runEvent (.write 0x1000#32 1 0x42#32) ready) (fun _ => true) = true := by decide

/-- Both ends of the register window and of both byte windows, and both an aligned and an unaligned access. -/
theorem witness_UnsupportedAccessesAreRefused :
    (0xFFC#32).toNat < 0x1000 ∧ (0xFFC#32).toNat % 4 = 0 ∧ 0xFFC#32 ≠ 0#32 ∧ ¬((2 : Nat) = 4 ∧ (0xFFC#32).toNat % 4 = 0) ∧
    ¬((4 : Nat) = 4 ∧ (0xFFE#32).toNat % 4 = 0) ∧
    (0x1000 ≤ (0x1000#32).toNat ∧ (0x1000#32).toNat ≤ 0x2FFE) ∧ (0x1000 ≤ (0x2FFE#32).toNat ∧ (0x2FFE#32).toNat ≤ 0x2FFE) ∧
    (0x10000000 ≤ (0x10000000#32).toNat ∧ (0x10000000#32).toNat < 0x10000000 + Config.bitCap / 8) ∧
    (1 : Nat) ≤ 1 ∧ (2 : Nat) ≠ 1 := by
  have := bitCap_lower
  refine ⟨by decide, by decide, by decide, by decide, by decide, by decide, by decide, ⟨by decide, ?_⟩, by decide, by decide⟩
  show 0x10000000 < _
  omega

/-- The first reserved register, all reserved space below the bit-buffer window in one access, and the last byte of host
space. -/
theorem witness_ReservedOffsetsReadZeroAndIgnoreWrites :
    (0x020 ≤ (0x020#32).toNat ∧ (0x020#32).toNat < 0x1000 ∧ (0x020#32).toNat % 4 = 0) ∧
    (1 ≤ 0xFFFD001 ∧ 0x2FFF ≤ (0x2FFF#32).toNat ∧ (0x2FFF#32).toNat + 0xFFFD001 ≤ 0x10000000) ∧
    (0x10000000 + Config.bitCap / 8 ≤ (0xFFFFFFFF#32).toNat ∧ (0xFFFFFFFF#32).toNat + 1 ≤ 2 ^ 32) := by
  have := bitCap_upper
  refine ⟨by decide, by decide, ?_, by decide⟩
  show _ ≤ 0xFFFFFFFF
  omega

theorem witness_MessageWindow :
    8190 ≤ 8190 ∧ Memory.read ready.msg 0 = some 0x41#8 ∧ Memory.read ready.msg 8190 = none := by decide

/-- The last byte of the bit-buffer window; a written bit; and an encoded message. -/
theorem witness_BitWindow :
    Config.bitCap / 8 - 1 < Config.bitCap / 8 ∧ Memory.read ready.bits (8 * 0 + 7) = some false ∧
    (ready.msgLen.toNat = [0x41#8].length ∧ 8 * [0x41#8].length < 65536 ∧ HoldsMessage ready [0x41#8] ∧
      [0x41#8][0]? = some 0x41#8) := by
  have := bitCap_lower
  exact ⟨by omega, by decide, by decide, by decide, ready_holdsMessage, by decide⟩

theorem witness_HostAddressesAreBasePlusOffset : Config.blockBase + 2 ^ 32 ≤ Config.blockBase + 2 ^ 32 := Nat.le_refl _

theorem witness_LoadmsgLoadsTheMessage : (List.replicate 8191 0x41#8).length ≤ 8191 := by rw [List.length_replicate]

theorem witness_LoadbitsLoadsTheBits : (List.replicate Config.bitCap true).length ≤ Config.bitCap ∧ [true].length ≤ 7 := by
  rw [List.length_replicate]; exact ⟨Nat.le_refl _, by decide⟩

theorem witness_ResetLeavesResetValues :
    Reg.status ≠ .bitcap ∧ 0x020 ≤ (0xFFC#32).toNat ∧ (0xFFC#32).toNat < 0x1000 ∧ (0xFFC#32).toNat % 4 = 0 := by decide

theorem witness_EveryStepKeepsTheInvariant :
    (State.reset.withFetchWord 32 1).Inv ∧
    nextAnd (step (State.reset.withFetchWord 32 1)) (fun t => t.bitLen == 16#32) = true :=
  ⟨⟨Memory.within_nil _, Memory.within_nil _, ⟨List.Pairwise.nil, nofun⟩, rfl⟩, by decide⟩

theorem witness_OnlyResetMakesUnwritten :
    nextAnd (step (ready.setScript [wr .msgLen 0#32])) (fun _ => true) = true ∧
    (ready.setScript [wr .msgLen 0#32]).script.head? ≠ some .reset ∧ (Memory.read ready.msg 0).isSome = true ∧
    (Memory.read ready.bits 23).isSome = true := by decide

theorem witness_OnlyCommandsWriteStatus :
    nextAnd (step (ready.setScript [wr .msgLen 0#32])) (fun _ => true) = true ∧
    (ready.setScript [wr .msgLen 0#32]).script.head? ≠ some .reset ∧
    (∀ n w, (ready.setScript [wr .msgLen 0#32]).script.head? ≠ some (.write 0#32 n w)) :=
  ⟨by decide, by decide, fun _ _ h => by cases h⟩

theorem witness_BlockOnlyIncrementsBlue :
    nextAnd (step (ready.withFetchWord 32 4)) (fun t => t.image != ready.image) = true ∧
    (∀ w h, (ready.withFetchWord 32 4).script.head? ≠ some (.newImage w h)) ∧
    (∀ x y c v, (ready.withFetchWord 32 4).script.head? ≠ some (.loadPixel x y c v)) ∧ Channel.alpha ≠ .blue :=
  ⟨by decide, fun _ _ h => (by cases h), fun _ _ _ _ h => (by cases h), by decide⟩

end Sys2Proof.Tests
end

section
/-! SUPPORT. Laws of the step, of the buffers and of faults that the statements about the state rest on. -/

namespace Sys2Proof.Machine

variable {s t : State}

/-! ### Steps and commands that are given -/

theorem step_of_script {e : HostEvent} {l : List HostEvent} (h : s.script = e :: l) :
    step s = runEvent e (s.setScript l) := by
  rw [step, h]

theorem runEvent_write_cmd (w : Word) (s : State) : runEvent (.write 0#32 4 w) s = runCommand w s := rfl

theorem runCommand_of_decode_ok {w : Word} {i : Instr} (h : decode w = .ok i) (s : State) :
    runCommand w s = exec i s := by
  rw [runCommand, h]

theorem runCommand_of_decode_error {w : Word} {e : Illegal} (h : decode w = .error e) (s : State) :
    runCommand w s = .next (s.setStatus .illegalCommand) := by
  rw [runCommand, h]; rfl

/-- A read of a reserved register offset returns 0 and changes nothing else (10_state.md R34). -/
theorem runEvent_read_reservedRegister {o : Word} (hlo : 0x20 ≤ o.toNat) (hhi : o.toNat < 0x1000)
    (h4 : o.toNat % 4 = 0) (s : State) : runEvent (.read o 4) s = .next (s.reply 0#32) := by
  have hs : supported o.toNat 4 = true := by simp [supported, regionOf_register hhi, h4]
  have hd : readData s o.toNat = 0#32 := by simp [readData, regionOf_register hhi, regAt_eq_none hlo]
  rw [runEvent, hostRead, if_pos hs, hd]

/-! ### Operands that are not there -/

theorem messageOperand_eq_none {k n : Nat} (hk : k < n) (h : Memory.read s.msg k = none) :
    messageOperand s n = none :=
  (Memory.readRange_eq_none _ _ _).2 ⟨k, hk, by rwa [Nat.zero_add]⟩

theorem bitsOperand_eq_none {i k n : Nat} (hk : k < n) (h : Memory.read s.bits (i + k) = none) :
    bitsOperand s i n = none :=
  (Memory.readRange_eq_none _ _ _).2 ⟨k, hk, h⟩

theorem messageOperand_length {n : Nat} {m : List Byte} (h : messageOperand s n = some m) : m.length = n :=
  ((Memory.readRange_eq_some _ _ _ _).1 h).1

theorem bitsOperand_length {i n : Nat} {b : List Bool} (h : bitsOperand s i n = some b) : b.length = n :=
  ((Memory.readRange_eq_some _ _ _ _).1 h).1

theorem pixelOf_mem_traversal {k W H : Nat} (hk : k < W * H) : pixelOf k H ∈ traversal W H := by
  rw [traversal_eq_map]
  exact List.mem_map_of_mem (List.mem_range.2 hk)

/-- An extract meets the pixel the host did not load. -/
theorem readBlues_traversal_eq_none {p : PixelMemory} {k W H : Nat} (hk : k < W * H)
    (h : pixRead p (pixelOf k H).1 (pixelOf k H).2 .blue = none) : readBlues p (traversal W H) = none :=
  (readBlues_eq_none _ _).2 ⟨_, pixelOf_mem_traversal hk, h⟩

/-- No pixel outside the image is loaded (10_state.md R38). -/
theorem pixRead_outside {p : PixelMemory} {x y : Nat} (c : Channel)
    (h : p.width.toNat ≤ x ∨ p.height.toNat ≤ y) : pixRead p x y c = none := by
  have : p.inGrid x y c = false := by
    rcases h with h | h <;> simp [PixelMemory.inGrid, Nat.not_lt.2 h]
  rw [pixRead, this]; rfl

/-- The last pixel of the traversal order lies in the last column and the last row. -/
theorem pixelOf_last {W H : Nat} (hW : 0 < W) (hH : 0 < H) : pixelOf (W * H - 1) H = (W - 1, H - 1) := by
  obtain ⟨W, rfl⟩ := Nat.exists_eq_add_of_lt hW
  refine (pixelOf_eq_iff hH).2 ⟨by omega, ?_⟩
  rw [Nat.zero_add, Nat.add_sub_cancel, Nat.add_mul, Nat.one_mul]
  omega

/-! ### Where a command faults -/

/-- A command without a next state faults: none is refused, and there is one fault. -/
theorem exec_fault_of_no_next {i : Instr} (h : ∀ t, exec i s ≠ .next t) : exec i s = .fault .unwrittenRead := by
  cases hx : exec i s with
  | next t => exact absurd hx (h t)
  | fault f => rfl
  | refused r => exact absurd hx (exec_not_refused i r)

theorem embedBits_ne_next {b : List Bool} {k : Nat} (hk : k < b.length)
    (h : pixRead s.image (pixelOf k s.height.toNat).1 (pixelOf k s.height.toNat).2 .blue = none) :
    embedBits b s ≠ .next t := by
  rw [embedBits_fault (embedAccesses_eq_none hk h)]
  nofun

theorem encode_fault_of_unwritten {k : Nat} (hn : 8 * s.msgLen.toNat < 65536) (hk : k < s.msgLen.toNat)
    (h : Memory.read s.msg k = none) : exec .encode s = .fault .unwrittenRead := by
  refine exec_fault_of_no_next fun t ht => ?_
  obtain ⟨hlong, -⟩ | ⟨-, m, b, hm, -⟩ := execEncode_cases.1 ht
  · omega
  · rw [messageOperand_eq_none hk h] at hm; cases hm

theorem encrypt_fault_of_unwritten {k : Nat} (hn : 8 * s.msgLen.toNat < 65536)
    (hc : 16 + 8 * s.msgLen.toNat ≤ s.width.toNat * s.height.toNat) (hk : k < s.msgLen.toNat)
    (h : Memory.read s.msg k = none) : exec .encrypt s = .fault .unwrittenRead := by
  refine exec_fault_of_no_next fun t ht => ?_
  obtain ⟨hlong, -⟩ | ⟨-, hsmall, -⟩ | ⟨-, -, m, b, hm, -⟩ := execEncrypt_cases.1 ht
  · omega
  · omega
  · rw [messageOperand_eq_none hk h] at hm; cases hm

theorem encrypt_fault_of_unloaded {k : Nat} (hn : 8 * s.msgLen.toNat < 65536)
    (hc : 16 + 8 * s.msgLen.toNat ≤ s.width.toNat * s.height.toNat) (hk : k < 16 + 8 * s.msgLen.toNat)
    (h : pixRead s.image (pixelOf k s.height.toNat).1 (pixelOf k s.height.toNat).2 .blue = none) :
    exec .encrypt s = .fault .unwrittenRead := by
  refine exec_fault_of_no_next fun t ht => ?_
  obtain ⟨hlong, -⟩ | ⟨-, hsmall, -⟩ | ⟨-, -, m, b, hm, rfl, hb⟩ := execEncrypt_cases.1 ht
  · omega
  · omega
  · refine embedBits_ne_next ?_ h hb
    simpa [messageOperand_length hm] using hk

theorem decode_fault_of_unwritten_lengthBits {k : Nat} (h16 : 16 ≤ s.bitLen.toNat)
    (hcap : s.bitLen.toNat ≤ Config.bitCap) (hk : k < 16) (h : Memory.read s.bits k = none) :
    exec .decode s = .fault .unwrittenRead := by
  refine exec_fault_of_no_next fun t ht => ?_
  obtain ⟨hover, -⟩ | ⟨-, hshort, -⟩ | ⟨-, -, p, hp, -⟩ := execDecode_cases.1 ht
  · omega
  · omega
  · rw [bitsOperand_eq_none hk (by rwa [Nat.zero_add])] at hp; cases hp

theorem decode_fault_of_unwritten_message {k : Nat} {p : List Bool} (hlen : p.length = 16) (hp : HoldsBits s 0 p)
    (hcap : s.bitLen.toNat ≤ Config.bitCap) (h8 : bitsToU16 p % 8 = 0) (hL : 16 + bitsToU16 p ≤ s.bitLen.toNat)
    (hk : k < bitsToU16 p) (h : Memory.read s.bits (16 + k) = none) : exec .decode s = .fault .unwrittenRead := by
  refine exec_fault_of_no_next fun t ht => ?_
  have hp16 : bitsOperand s 0 16 = some p := hlen ▸ bitsOperand_of_holds hp
  obtain ⟨hover, -⟩ | ⟨-, hshort, -⟩ | ⟨-, -, p', hp', hend⟩ := execDecode_cases.1 ht
  · omega
  · omega
  · cases hp16.symm.trans hp'
    obtain ⟨hmal, -⟩ | ⟨-, -, q, hq, -⟩ := hend
    · omega
    · rw [bitsOperand_eq_none hk h] at hq; cases hq

theorem embed_fault {k : Nat} (hcap : s.bitLen.toNat ≤ Config.bitCap)
    (hc : s.bitLen.toNat ≤ s.width.toNat * s.height.toNat) (hk : k < s.bitLen.toNat)
    (h : Memory.read s.bits k = none ∨
      pixRead s.image (pixelOf k s.height.toNat).1 (pixelOf k s.height.toNat).2 .blue = none) :
    exec .embed s = .fault .unwrittenRead := by
  refine exec_fault_of_no_next fun t ht => ?_
  obtain ⟨hover, -⟩ | ⟨-, hsmall, -⟩ | ⟨-, -, b, hb, hembed⟩ := execEmbed_cases.1 ht
  · omega
  · omega
  · rcases h with hbit | hpix
    · rw [bitsOperand_eq_none hk (by rwa [Nat.zero_add])] at hb; cases hb
    · exact embedBits_ne_next (by rwa [bitsOperand_length hb]) hpix hembed

theorem extract_fault_of_unloaded {k : Nat} (hcap : s.width.toNat * s.height.toNat ≤ Config.bitCap)
    (hk : k < s.width.toNat * s.height.toNat)
    (h : pixRead s.image (pixelOf k s.height.toNat).1 (pixelOf k s.height.toNat).2 .blue = none) :
    exec .extract s = .fault .unwrittenRead := by
  refine exec_fault_of_no_next fun t ht => ?_
  obtain ⟨hover, -⟩ | ⟨-, vs, hvs, -⟩ := execExtract_cases.1 ht
  · omega
  · rw [readBlues_traversal_eq_none hk h] at hvs; cases hvs

theorem decrypt_fault_of_unloaded {k : Nat} (hk : k < s.width.toNat * s.height.toNat)
    (h : pixRead s.image (pixelOf k s.height.toNat).1 (pixelOf k s.height.toNat).2 .blue = none) :
    exec .decrypt s = .fault .unwrittenRead := by
  refine exec_fault_of_no_next fun t ht => ?_
  obtain ⟨vs, hvs, -⟩ := execDecrypt_cases.1 ht
  rw [readBlues_traversal_eq_none hk h] at hvs; cases hvs

/-! ### Written locations stay written -/

/-- Every MSG byte and BITBUF bit written in `s` is written in `t` (70_reset_and_hazards.md R212). -/
structure State.KeepsWritten (s t : State) : Prop where
  msg : ∀ k, (Memory.read s.msg k).isSome → (Memory.read t.msg k).isSome
  bits : ∀ i, (Memory.read s.bits i).isSome → (Memory.read t.bits i).isSome

theorem keepsWritten_of_eq (hm : t.msg = s.msg) (hb : t.bits = s.bits) : s.KeepsWritten t :=
  ⟨fun _ h => hm ▸ h, fun _ h => hb ▸ h⟩

theorem keepsWritten_of_writeFrom {m : List Byte} {b : List Bool} {i j : Nat} (hm : t.msg = Memory.writeFrom s.msg i m)
    (hb : t.bits = Memory.writeFrom s.bits j b) : s.KeepsWritten t :=
  ⟨fun _ h => hm ▸ Memory.isSome_read_writeFrom i m h, fun _ h => hb ▸ Memory.isSome_read_writeFrom j b h⟩

theorem embedBits_buffers {b : List Bool} (h : embedBits b s = .next t) : t.msg = s.msg ∧ t.bits = s.bits := by
  obtain ⟨l, -, rfl⟩ := embedBits_cases.1 h
  exact ⟨rfl, rfl⟩

/-- A command changes the buffers only by writing values from location 0 on. -/
theorem exec_buffers {i : Instr} (h : exec i s = .next t) :
    ∃ m b, t.msg = Memory.writeFrom s.msg 0 m ∧ t.bits = Memory.writeFrom s.bits 0 b := by
  cases i with
  | encode =>
    obtain ⟨-, rfl⟩ | ⟨-, m, b, -, -, rfl⟩ := execEncode_cases.1 h
    · exact ⟨[], [], rfl, rfl⟩
    · exact ⟨[], b, rfl, rfl⟩
  | decode =>
    obtain ⟨-, rfl⟩ | ⟨-, -, rfl⟩ | ⟨-, -, p, -, ⟨-, rfl⟩ | ⟨-, -, q, -, rfl⟩⟩ := execDecode_cases.1 h
    · exact ⟨[], [], rfl, rfl⟩
    · exact ⟨[], [], rfl, rfl⟩
    · exact ⟨[], [], rfl, rfl⟩
    · exact ⟨bitsToBytes q, [], rfl, rfl⟩
  | sub v b =>
    obtain rfl := execSub_cases.1 h
    exact ⟨[], [], rfl, rfl⟩
  | embed =>
    obtain ⟨-, rfl⟩ | ⟨-, -, rfl⟩ | ⟨-, -, b, -, hb⟩ := execEmbed_cases.1 h
    · exact ⟨[], [], rfl, rfl⟩
    · exact ⟨[], [], rfl, rfl⟩
    · exact ⟨[], [], embedBits_buffers hb⟩
  | extract =>
    obtain ⟨-, rfl⟩ | ⟨-, vs, -, rfl⟩ := execExtract_cases.1 h
    · exact ⟨[], [], rfl, rfl⟩
    · exact ⟨[], vs.map parity, rfl, rfl⟩
  | encrypt =>
    obtain ⟨-, rfl⟩ | ⟨-, -, rfl⟩ | ⟨-, -, m, b, -, -, hb⟩ := execEncrypt_cases.1 h
    · exact ⟨[], [], rfl, rfl⟩
    · exact ⟨[], [], rfl, rfl⟩
    · exact ⟨[], [], embedBits_buffers hb⟩
  | decrypt =>
    obtain ⟨vs, -, ⟨c, -, rfl⟩ | ⟨m, -, rfl⟩⟩ := execDecrypt_cases.1 h
    · exact ⟨[], [], rfl, rfl⟩
    · exact ⟨m, [], rfl, rfl⟩

theorem exec_keepsWritten {i : Instr} (h : exec i s = .next t) : s.KeepsWritten t := by
  obtain ⟨m, b, hm, hb⟩ := exec_buffers h
  exact keepsWritten_of_writeFrom hm hb

theorem writeData_keepsWritten (o : Nat) (v : Word) (s : State) : s.KeepsWritten (writeData o v s) := by
  obtain ⟨k, -, hw⟩ | ⟨k, -, hw⟩ | ⟨n, b, w, g, hw⟩ := writeData_cases o v s
  · exact keepsWritten_of_writeFrom (m := [v.setWidth 8]) (i := k) (b := []) (j := 0) (by rw [hw]; rfl)
      (by rw [hw]; rfl)
  · exact keepsWritten_of_writeFrom (m := []) (i := 0) (by rw [hw]; rfl) (by rw [hw])
  · exact keepsWritten_of_eq (by rw [hw]) (by rw [hw])

/-- Every act of the host but reset keeps written locations written. -/
theorem runEvent_keepsWritten {e : HostEvent} (he : e ≠ .reset) (h : runEvent e s = .next t) : s.KeepsWritten t := by
  obtain ⟨n, w, i, -, -, hx⟩ | ⟨n, w, -, rfl⟩ | ⟨o, n, v, -, -, rfl⟩ | ⟨o, n, v, -, rfl⟩ | ⟨hreset, -⟩ |
    ⟨w, g, -, rfl⟩ | ⟨x, y, c, v, -, -, rfl⟩ := runEvent_cases h
  · exact exec_keepsWritten hx
  · exact keepsWritten_of_eq rfl rfl
  · exact writeData_keepsWritten _ _ _
  · exact keepsWritten_of_eq rfl rfl
  · exact absurd hreset he
  · exact keepsWritten_of_eq rfl rfl
  · exact keepsWritten_of_eq rfl rfl

theorem step_keepsWritten (h : step s = .next t) (hr : s.script.head? ≠ some .reset) : s.KeepsWritten t := by
  obtain ⟨-, rfl⟩ | ⟨e, l, hs, hrun⟩ := step_cases h
  · exact keepsWritten_of_eq rfl rfl
  · have he : e ≠ .reset := fun h => hr (by rw [hs, h]; rfl)
    obtain ⟨hmsg, hbits⟩ := runEvent_keepsWritten he hrun
    exact ⟨hmsg, hbits⟩

end Sys2Proof.Machine
end

section
/-! SUPPORT. The statements about the state of the block (10_state.md), settled. -/

namespace Sys2Proof.Machine

/-- Settles O56: the invariant of a step, by the cases of the host's act and of the command it starts. -/
theorem onlyResetMakesUnwritten : Obligations.OnlyResetMakesUnwritten := by
  intro s t h hr
  obtain ⟨hmsg, hbits⟩ := step_keepsWritten h hr
  exact ⟨hmsg, hbits⟩

/-- Settles O38: each command has no next state where a location it reads has no value, and no command is refused. -/
theorem unwrittenReadsFault : Obligations.UnwrittenReadsFault := by
  intro s k
  refine ⟨fun hn hk h => ⟨encode_fault_of_unwritten hn hk h, fun hc => encrypt_fault_of_unwritten hn hc hk h⟩,
    decode_fault_of_unwritten_lengthBits, fun p => decode_fault_of_unwritten_message, embed_fault, fun hk h => ?_⟩
  exact ⟨decrypt_fault_of_unloaded hk h, fun hcap => extract_fault_of_unloaded hcap hk h,
    fun hn hc hk' => encrypt_fault_of_unloaded hn hc hk' h⟩

/-- Settles O39: the last pixel of the grid lies outside a smaller image, so it is not loaded. -/
theorem oversizedDimensionsFault : Obligations.OversizedDimensionsFault := by
  intro s hW hH hover
  have hk : s.width.toNat * s.height.toNat - 1 < s.width.toNat * s.height.toNat :=
    Nat.sub_one_lt (Nat.mul_pos hW hH).ne'
  have hlast : pixRead s.image (pixelOf (s.width.toNat * s.height.toNat - 1) s.height.toNat).1
      (pixelOf (s.width.toNat * s.height.toNat - 1) s.height.toNat).2 .blue = none := by
    rw [pixelOf_last hW hH]
    exact pixRead_outside _ (hover.imp Nat.le_sub_one_of_lt Nat.le_sub_one_of_lt)
  exact ⟨decrypt_fault_of_unloaded hk hlast, fun hcap => extract_fault_of_unloaded hcap hk hlast⟩

/-- Settles O5: a step is the host's next act, and that act is a write or a read of CMD. -/
theorem cmdWriteRunsTheDecodedCommand : Obligations.CmdWriteRunsTheDecodedCommand := by
  intro s l w
  refine ⟨fun i hs hd => ?_, fun e hs hd => ?_, fun hs => ?_⟩
  · rw [step_of_script hs, runEvent_write_cmd, runCommand_of_decode_ok hd]; rfl
  · rw [step_of_script hs, runEvent_write_cmd, runCommand_of_decode_error hd]; rfl
  · rw [step_of_script hs]; exact runEvent_rd _ .cmd

/-- Settles O53: the reset values as `resetBlock` stores them, and then as the host port returns them. -/
theorem resetLeavesResetValues : Obligations.ResetLeavesResetValues := by
  intro s
  refine ⟨resetBlock s, rfl, rfl, rfl, rfl, rfl, rfl, rfl, fun _ => rfl, fun _ => rfl, rfl, rfl, rfl,
    fun o hlo hhi h4 => runEvent_read_reservedRegister hlo hhi h4 _, fun r hr => ?_, runEvent_rd _ .bitcap⟩
  have hzero : readReg (resetBlock s) r = 0#32 := by
    cases r with
    | bitcap => exact absurd rfl hr
    | _ => rfl
  rw [runEvent_rd, hzero]; rfl

end Sys2Proof.Machine
end

section
/-! SUPPORT. Laws of the host port and of pixel memory that the statements about memory rest on. -/

namespace Sys2Proof.Machine

variable {s t : State}

/-! ### Which accesses the port supports (20_memory.md R53, R54) -/

theorem supported_register {o n : Nat} (h : o < 0x1000) : supported o n = true ↔ n = 4 ∧ o % 4 = 0 := by
  simp [supported, regionOf_register h]

/-- In a byte window exactly the one-byte accesses are supported. -/
theorem supported_byteWindow {o n : Nat}
    (h : 0x1000 ≤ o ∧ o ≤ 0x2FFE ∨ bitWindow ≤ o ∧ o < bitWindow + Config.bitCapBytes) :
    supported o n = true ↔ n = 1 := by
  rcases h with ⟨hlo, hhi⟩ | ⟨hlo, hhi⟩
  · obtain ⟨k, rfl⟩ := Nat.exists_eq_add_of_le hlo
    simp [supported, regionOf_message (show k ≤ 8190 by omega)]
  · obtain ⟨k, rfl⟩ := Nat.exists_eq_add_of_le hlo
    simp [supported, regionOf_bitbuf (show k < Config.bitCapBytes by omega)]

theorem supported_message {k : Nat} (h : k ≤ 8190) : supported (0x1000 + k) 1 = true :=
  (supported_byteWindow (.inl (by omega))).2 rfl

theorem supported_bitbuf {k : Nat} (h : k < Config.bitCapBytes) : supported (bitWindow + k) 1 = true :=
  (supported_byteWindow (.inr (by omega))).2 rfl

/-! ### What a host access does -/

theorem toNat_ne_cmd {o : Word} (h : o ≠ 0#32) : o.toNat ≠ regOffset .cmd :=
  fun h0 => h (BitVec.eq_of_toNat_eq h0)

/-- No offset beyond the register window is that of CMD. -/
theorem ne_cmd_of_window {o : Word} (h : 0x1000 ≤ o.toNat) : o ≠ 0#32 := by
  rintro rfl
  exact absurd h (by decide)

theorem runEvent_read_of_supported {o : Word} {n : Nat} (h : supported o.toNat n = true) (s : State) :
    runEvent (.read o n) s = .next (s.reply (readData s o.toNat)) := by
  rw [runEvent, hostRead, if_pos h]

theorem runEvent_read_of_unsupported {o : Word} {n : Nat} (h : ¬ supported o.toNat n = true) (s : State) :
    runEvent (.read o n) s = .refused .unsupportedAccess := by
  rw [runEvent, hostRead, if_neg h]

theorem runEvent_write_of_supported {o : Word} {n : Nat} (h : supported o.toNat n = true) (ho : o ≠ 0#32) (v : Word)
    (s : State) : runEvent (.write o n v) s = .next (writeData o.toNat v s) := by
  rw [runEvent, hostWrite, if_pos h, if_neg (toNat_ne_cmd ho)]

theorem runEvent_write_of_unsupported {o : Word} {n : Nat} (h : ¬ supported o.toNat n = true) (v : Word) (s : State) :
    runEvent (.write o n v) s = .refused .unsupportedAccess := by
  rw [runEvent, hostWrite, if_neg h]

/-- Where the supported accesses are those with `P`, these complete and every other is refused. -/
theorem accesses_of_supported_iff {P : Prop} {o : Word} {n : Nat} (hsup : supported o.toNat n = true ↔ P) (v : Word)
    (s : State) :
    (P → (∃ t, runEvent (.read o n) s = .next t) ∧ (o ≠ 0#32 → ∃ t, runEvent (.write o n v) s = .next t)) ∧
    (¬ P → runEvent (.read o n) s = .refused .unsupportedAccess ∧
      runEvent (.write o n v) s = .refused .unsupportedAccess) := by
  refine ⟨fun hP => ⟨⟨_, runEvent_read_of_supported (hsup.2 hP) s⟩, fun ho => ?_⟩, fun hP => ?_⟩
  · exact ⟨_, runEvent_write_of_supported (hsup.2 hP) ho v s⟩
  · exact ⟨runEvent_read_of_unsupported (mt hsup.1 hP) s, runEvent_write_of_unsupported (mt hsup.1 hP) v s⟩

/-- A host access that has a next state is a supported one. -/
theorem supported_of_read {o : Word} {n : Nat} (h : runEvent (.read o n) s = .next t) : supported o.toNat n = true := by
  by_contra hn
  rw [runEvent_read_of_unsupported hn] at h
  cases h

theorem supported_of_write {o : Word} {n : Nat} {v : Word} (h : runEvent (.write o n v) s = .next t) :
    supported o.toNat n = true := by
  by_contra hn
  rw [runEvent_write_of_unsupported hn] at h
  cases h

/-! ### Accesses done again (20_memory.md R56) -/

theorem readReg_reply (s : State) (v : Word) (r : Reg) : readReg (s.reply v) r = readReg s r := by
  cases r <;> rfl

/-- What the host has been told is not among what it reads. -/
theorem readData_reply (s : State) (v : Word) (o : Nat) : readData (s.reply v) o = readData s o := by
  unfold readData
  cases regionOf o with
  | register p => simp only [readReg_reply]
  | message k => rfl
  | bitbuf k => rfl
  | reserved => rfl

theorem writeReg_writeReg_same (v : Word) (s : State) (r : Reg) : writeReg v (writeReg v s r) r = writeReg v s r := by
  cases r <;> rfl

/-- Storing the same data at the same offset again changes nothing. -/
theorem writeData_writeData_same (o : Nat) (v : Word) (s : State) :
    writeData o v (writeData o v s) = writeData o v s := by
  unfold writeData
  cases regionOf o with
  | register p =>
    cases hr : regAt p with
    | none => simp only [hr]
    | some r => simp only [hr, writeReg_writeReg_same]
  | message k => simp only [Memory.write_write_same]
  | bitbuf k => simp only [Memory.writeFrom_writeFrom_same]
  | reserved => rfl

theorem pixWrite_pixWrite_same (p : PixelMemory) (x y : Nat) (c : Channel) (v : Byte) :
    pixWrite (pixWrite p x y c v) x y c v = pixWrite p x y c v := by
  simp only [pixWrite, Memory.write_write_same]

/-! ### The message-buffer window (20_memory.md R61) -/

theorem hostMsgByte_of_written {k : Nat} {v : Byte} (h : Memory.read s.msg k = some v) : hostMsgByte s k = v := by
  rw [hostMsgByte, h]; rfl

/-- A byte write of the window sets the MSG byte and changes nothing else. -/
theorem runEvent_wrbMsg {k : Nat} (h : k ≤ 8190) (v : Byte) (s : State) :
    runEvent (wrbMsg k v) s = .next { s with msg := Memory.write s.msg k v } := by
  have ho := messageOffset_toNat h
  rw [wrbMsg, runEvent_write_of_supported (by rw [ho]; exact supported_message h)
    (ne_cmd_of_window (by rw [ho]; omega)), ho]
  simp [writeData, regionOf_message h]

/-- A byte read of the window returns the byte and changes nothing else. -/
theorem runEvent_rdbMsg {k : Nat} (h : k ≤ 8190) (s : State) :
    runEvent (rdbMsg k) s = .next (s.reply (BitVec.ofNat 32 (hostMsgByte s k).toNat)) := by
  have ho := messageOffset_toNat h
  rw [rdbMsg, runEvent_read_of_supported (by rw [ho]; exact supported_message h), ho]
  simp only [readData, regionOf_message h, BitVec.ofNat_toNat]

/-! ### The bit-buffer window (20_memory.md R62) -/

theorem hostBit_of_written {i : Nat} {b : Bool} (h : Memory.read s.bits i = some b) : hostBit s i = b := by
  rw [hostBit, h]; rfl

/-- Position `8k + j` of BITBUF is bit `7 - j` of byte `k` of the window. -/
theorem hostBitbufByte_getLsbD (s : State) (k : Nat) {j : Nat} (hj : j < 8) :
    (hostBitbufByte s k).getLsbD (7 - j) = hostBit s (8 * k + j) := by
  have h := packByte_getLsbD (p := (List.range 8).map fun j => hostBit s (8 * k + j)) (by simp) (Nat.le_of_lt_succ hj)
  rw [List.getElem?_map, List.getElem?_range hj, Option.map_some, Option.some.injEq] at h
  exact h.symm

/-- A byte of the window whose bits are written is the byte that has them. -/
theorem hostBitbufByte_of_written {k : Nat} {x : Byte}
    (h : ∀ j, j < 8 → Memory.read s.bits (8 * k + j) = some (x.getLsbD (7 - j))) : hostBitbufByte s k = x := by
  refine BitVec.eq_of_getLsbD_eq fun i hi => ?_
  have hj := hostBitbufByte_getLsbD s k (show 7 - i < 8 by omega)
  rwa [hostBit_of_written (h _ (by omega)), show 7 - (7 - i) = i by omega] at hj

/-- A byte write of the window sets the eight bits of the byte and changes nothing else. -/
theorem runEvent_wrbBits {k : Nat} (h : k < Config.bitCapBytes) (v : Byte) (s : State) :
    runEvent (wrbBits k v) s = .next { s with bits := Memory.writeFrom s.bits (8 * k) (byteBits v) } := by
  have ho := bitOffset_toNat h
  rw [wrbBits, runEvent_write_of_supported (by rw [ho]; exact supported_bitbuf h)
    (ne_cmd_of_window (by rw [ho]; unfold bitWindow; omega)), ho]
  simp [writeData, regionOf_bitbuf h]

/-- A byte read of the window returns the packed byte and changes nothing else. -/
theorem runEvent_rdbBits {k : Nat} (h : k < Config.bitCapBytes) (s : State) :
    runEvent (rdbBits k) s = .next (s.reply (BitVec.ofNat 32 (hostBitbufByte s k).toNat)) := by
  have ho := bitOffset_toNat h
  rw [rdbBits, runEvent_read_of_supported (by rw [ho]; exact supported_bitbuf h), ho]
  simp only [readData, regionOf_bitbuf h, BitVec.ofNat_toNat]

theorem read_writeFrom_byteBits {m : Memory Bool} {k j : Nat} (hj : j < 8) (v : Byte) :
    Memory.read (Memory.writeFrom m (8 * k) (byteBits v)) (8 * k + j) = some (v.getLsbD (7 - j)) := by
  rw [Memory.read_writeFrom_inside _ _ _ (by rwa [byteBits_length]), byteBits_getElem? _ (Nat.le_of_lt_succ hj)]

/-! ### An encoded message in the bit buffer (40_bit_codec.md R100, R120) -/

/-- Bit `j` of byte `k` of a message stands at position `8k + j` of its bits. -/
theorem bytesToBits_getElem? (m : List Byte) : ∀ (k : Nat) {j : Nat}, j ≤ 7 →
    (bytesToBits m)[8 * k + j]? = (m[k]?).map fun x => x.getLsbD (7 - j) := by
  induction m with
  | nil => intro k j _; rfl
  | cons x m ih =>
    intro k j hj
    rw [bytesToBits_cons]
    cases k with
    | zero =>
      rw [List.getElem?_append_left (by rw [byteBits_length]; omega), Nat.mul_zero, Nat.zero_add,
        byteBits_getElem? x hj]
      rfl
    | succ k =>
      rw [List.getElem?_append_right (by rw [byteBits_length]; omega), byteBits_length, List.getElem?_cons_succ, ← ih k hj]
      congr 1; omega

theorem holdsBits_setStatus {c : StatusCode} {i : Nat} {b : List Bool} :
    HoldsBits (s.setStatus c) i b ↔ HoldsBits s i b := Iff.rfl

/-- ENCODE of a message that MSG holds writes the encoded sequence. -/
theorem exec_encode_of_holds {m : List Byte} (hn : s.msgLen.toNat = m.length) (hlen : 8 * m.length < 65536)
    (hm : HoldsMessage s m) :
    exec .encode s = .next ((s.setBitSequence (u16ToBits (8 * m.length) ++ bytesToBits m)).setStatus .ok) :=
  execEncode_cases.2 (.inr ⟨by rwa [hn], m, _, by rw [hn]; exact messageOperand_of_holds hm, rfl, rfl⟩)

/-- After an encoded message is written, byte `2 + k` of the window is byte `k` of the message. -/
theorem hostBitbufByte_of_encoded {m : List Byte} {k : Nat} {x : Byte} (hx : m[k]? = some x)
    (ht : HoldsBits t 0 (u16ToBits (8 * m.length) ++ bytesToBits m)) : hostBitbufByte t (2 + k) = x := by
  refine hostBitbufByte_of_written fun j hj => ?_
  have hk : k < m.length := (List.getElem?_eq_some_iff.1 hx).1
  have hread := ht (8 * (2 + k) + j) (by rw [List.length_append, u16ToBits_length, bytesToBits_length]; omega)
  rw [Nat.zero_add, List.getElem?_append_right (by rw [u16ToBits_length]; omega), u16ToBits_length,
    show 8 * (2 + k) + j - 16 = 8 * k + j by omega, bytesToBits_getElem? m k (Nat.le_of_lt_succ hj), hx] at hread
  exact hread

/-! ### What the block does to pixel memory -/

/-- Every location of `q` reads as in `p`, or is a blue value incremented by 1 modulo 256 (41_pixel_mapper.md R131). -/
def PixelMemory.OnlyIncrementsBlue (p q : PixelMemory) : Prop :=
  ∀ x y c, pixRead q x y c = pixRead p x y c ∨ (c = .blue ∧ pixRead q x y c = (pixRead p x y c).map (· + 1#8))

theorem onlyIncrementsBlue_of_eq {p q : PixelMemory} (h : q = p) : p.OnlyIncrementsBlue q :=
  fun _ _ _ => .inl (by rw [h])

theorem map_subParity (o : Option Byte) (b : Bool) :
    o.map (subParity · b) = o ∨ o.map (subParity · b) = o.map (· + 1#8) := by
  cases o with
  | none => exact .inl rfl
  | some v =>
    by_cases hv : parity v = b
    · exact .inl (by simp [subParity, hv])
    · exact .inr (by simp [subParity, hv])

/-- A command leaves pixel memory as it is, or ends in the embedding stage, on a sequence that fits the grid. -/
theorem exec_image {i : Instr} (h : exec i s = .next t) :
    t.image = s.image ∨ ∃ b : List Bool, b.length ≤ s.width.toNat * s.height.toNat ∧ embedBits b s = .next t := by
  cases i with
  | encode =>
    obtain ⟨-, rfl⟩ | ⟨-, m, b, -, -, rfl⟩ := execEncode_cases.1 h
    · exact .inl rfl
    · exact .inl rfl
  | decode =>
    obtain ⟨-, rfl⟩ | ⟨-, -, rfl⟩ | ⟨-, -, p, -, ⟨-, rfl⟩ | ⟨-, -, q, -, rfl⟩⟩ := execDecode_cases.1 h
    · exact .inl rfl
    · exact .inl rfl
    · exact .inl rfl
    · exact .inl rfl
  | sub v b =>
    obtain rfl := execSub_cases.1 h
    exact .inl rfl
  | embed =>
    obtain ⟨-, rfl⟩ | ⟨-, -, rfl⟩ | ⟨-, hfits, b, hb, hembed⟩ := execEmbed_cases.1 h
    · exact .inl rfl
    · exact .inl rfl
    · exact .inr ⟨b, by rwa [bitsOperand_length hb], hembed⟩
  | extract =>
    obtain ⟨-, rfl⟩ | ⟨-, vs, -, rfl⟩ := execExtract_cases.1 h
    · exact .inl rfl
    · exact .inl rfl
  | encrypt =>
    obtain ⟨-, rfl⟩ | ⟨-, -, rfl⟩ | ⟨-, hfits, m, b, hm, rfl, hembed⟩ := execEncrypt_cases.1 h
    · exact .inl rfl
    · exact .inl rfl
    · exact .inr ⟨_, by simpa [messageOperand_length hm] using hfits, hembed⟩
  | decrypt =>
    obtain ⟨vs, -, ⟨c, -, rfl⟩ | ⟨m, -, rfl⟩⟩ := execDecrypt_cases.1 h
    · exact .inl rfl
    · exact .inl rfl

/-- The embedding stage adjusts the blue values of its own pixels by `sub`, and `sub` increments or keeps. -/
theorem embedBits_onlyIncrementsBlue {b : List Bool} (hb : b.length ≤ s.width.toNat * s.height.toNat)
    (h : embedBits b s = .next t) : s.image.OnlyIncrementsBlue t.image := by
  obtain ⟨l, hl, rfl⟩ := embedBits_cases.1 h
  have hloaded : BlueLoaded s.image s.height.toNat b.length := fun j hj => by
    simpa using (embedAccesses_isSome b 0).1 ⟨l, hl⟩ j hj
  obtain ⟨l', hl', hadjusted, hframe⟩ := embedAccesses_of_loaded hb hloaded
  cases hl.symm.trans hl'
  intro x y c
  by_cases hpix : c = .blue ∧ ∃ i, i < b.length ∧ pixelOf i s.height.toNat = (x, y)
  · obtain ⟨rfl, i, hi, hxy⟩ := hpix
    have hread := hadjusted i b[i] (List.getElem?_eq_getElem hi)
    rw [hxy] at hread
    exact (map_subParity (pixRead s.image x y .blue) b[i]).imp hread.trans fun hinc => ⟨rfl, hread.trans hinc⟩
  · exact .inl (hframe x y c fun hc i hi hxy => hpix ⟨hc, i, hi, hxy⟩)

theorem exec_onlyIncrementsBlue {i : Instr} (h : exec i s = .next t) : s.image.OnlyIncrementsBlue t.image := by
  obtain himage | ⟨b, hb, hembed⟩ := exec_image h
  · exact onlyIncrementsBlue_of_eq himage
  · exact embedBits_onlyIncrementsBlue hb hembed

theorem writeData_image (o : Nat) (v : Word) (s : State) : (writeData o v s).image = s.image := by
  obtain ⟨k, -, hw⟩ | ⟨k, -, hw⟩ | ⟨n, b, w, g, hw⟩ := writeData_cases o v s
  · rw [hw]
  · rw [hw]
  · rw [hw]

/-- Every act of the host but its own loading of pixel memory increments or keeps blue values. -/
theorem runEvent_onlyIncrementsBlue {e : HostEvent} (hnew : ∀ w g, e ≠ .newImage w g)
    (hload : ∀ x y c v, e ≠ .loadPixel x y c v) (h : runEvent e s = .next t) : s.image.OnlyIncrementsBlue t.image := by
  obtain ⟨n, w, i, -, -, hx⟩ | ⟨n, w, -, rfl⟩ | ⟨o, n, v, -, -, rfl⟩ | ⟨o, n, v, -, rfl⟩ | ⟨-, rfl⟩ |
    ⟨w, g, he, -⟩ | ⟨x, y, c, v, he, -, -⟩ := runEvent_cases h
  · exact exec_onlyIncrementsBlue hx
  · exact onlyIncrementsBlue_of_eq rfl
  · exact onlyIncrementsBlue_of_eq (writeData_image _ _ _)
  · exact onlyIncrementsBlue_of_eq rfl
  · exact onlyIncrementsBlue_of_eq rfl
  · exact absurd he (hnew w g)
  · exact absurd he (hload x y c v)

theorem step_onlyIncrementsBlue (h : step s = .next t) (hnew : ∀ w g, s.script.head? ≠ some (.newImage w g))
    (hload : ∀ x y c v, s.script.head? ≠ some (.loadPixel x y c v)) : s.image.OnlyIncrementsBlue t.image := by
  obtain ⟨-, rfl⟩ | ⟨e, l, hs, hrun⟩ := step_cases h
  · exact onlyIncrementsBlue_of_eq rfl
  · rw [hs] at hnew hload
    show (s.setScript l).image.OnlyIncrementsBlue t.image
    exact runEvent_onlyIncrementsBlue (fun w g he => hnew w g (congrArg some he))
      (fun x y c v he => hload x y c v (congrArg some he)) hrun

end Sys2Proof.Machine
end

section
/-! SUPPORT. The statements about memory (20_memory.md), settled. -/

namespace Sys2Proof.Machine

/-- Settles O58: the invariant of a step, by the cases of the host's act; only the embedding stage changes a pixel. -/
theorem blockOnlyIncrementsBlue : Obligations.BlockOnlyIncrementsBlue := by
  intro s t h hnew hload x y c
  obtain hsame | ⟨rfl, hinc⟩ := step_onlyIncrementsBlue h hnew hload x y c
  · exact ⟨fun _ => hsame, .inl hsame⟩
  · exact ⟨fun hc => absurd rfl hc, .inr hinc⟩

/-- Settles O44: an access that happened is a supported one, and it reads or stores the same again. -/
theorem hostReadsRepeatAndWritesAreIdempotent : Obligations.HostReadsRepeatAndWritesAreIdempotent := by
  refine ⟨fun s t o n h => ?_, fun s t o n v ho h => ?_, pixWrite_pixWrite_same, fun s w => runEvent_write_cmd w s⟩
  · have hsup := supported_of_read h
    rw [runEvent_read_of_supported hsup] at h
    cases h
    refine ⟨readData s o.toNat, rfl, ?_⟩
    rw [runEvent_read_of_supported hsup, readData_reply]; rfl
  · have hsup := supported_of_write h
    rw [runEvent_write_of_supported hsup ho] at h
    cases h
    rw [runEvent_write_of_supported hsup ho, writeData_writeData_same]

/-- Settles O45: the port's test of an access, window by window. -/
theorem unsupportedAccessesAreRefused : Obligations.UnsupportedAccessesAreRefused := by
  intro s o n v _
  refine ⟨fun hreg => accesses_of_supported_iff (supported_register hreg) v s, fun hbyte => ?_⟩
  rw [bitCap_div] at hbyte
  have hsup : supported o.toNat n = true ↔ n = 1 := supported_byteWindow (by unfold bitWindow; omega)
  obtain ⟨hone, hwide⟩ := accesses_of_supported_iff hsup v s
  exact ⟨fun hn => (hone hn).imp_right fun hwrite => hwrite (ne_cmd_of_window (by omega)), hwide⟩

/-- Settles O48: the byte write and the byte read of the window, with the rules of reads after a write. -/
theorem messageWindow : Obligations.MessageWindow := by
  intro s k v hk
  refine ⟨⟨_, runEvent_wrbMsg hk v s, Memory.read_write_same _ _ _, fun j hj => Memory.read_write_of_ne _ _ hj, rfl⟩,
    fun h => ?_, fun _ => ⟨hostMsgByte s k, runEvent_rdbMsg hk s⟩⟩
  rw [runEvent_rdbMsg hk, hostMsgByte_of_written h]; rfl

/-- Settles O49: the byte write and the byte read of the window bit by bit, then the read of an encoded message.
(The name `bitWindow` is the model's constant.) -/
theorem bitWindowPacking : Obligations.BitWindow := by
  refine ⟨fun s k v hk => ?_, fun s m hn hlen hm => ?_⟩
  · rw [bitCap_div] at hk
    refine ⟨⟨_, runEvent_wrbBits hk v s, fun j hj => read_writeFrom_byteBits hj v,
        fun i hi => Memory.read_writeFrom_outside _ _ _ (by rwa [byteBits_length]), rfl⟩,
      hostBitbufByte s k, runEvent_rdbBits hk s, fun j b hj hb => ?_⟩
    rw [hostBitbufByte_getLsbD s k hj, hostBit_of_written hb]
  · have hheld : HoldsBits ((s.setBitSequence (u16ToBits (8 * m.length) ++ bytesToBits m)).setStatus .ok) 0
        (u16ToBits (8 * m.length) ++ bytesToBits m) := holdsBits_setStatus.2 (holdsBits_setBitSequence _)
    refine ⟨_, exec_encode_of_holds hn hlen hm, fun k x hx => ?_⟩
    have hk : k < m.length := (List.getElem?_eq_some_iff.1 hx).1
    have hcap := bitCapBytes_lower
    rw [runEvent_rdbBits (by omega), hostBitbufByte_of_encoded hx hheld]; rfl

end Sys2Proof.Machine
end

section
/-! SUPPORT. Laws of the command word, of what each command writes and of the host scripts that load the buffers, on
which the statements about the encoding rest. -/

namespace Sys2Proof.Machine

variable {s t : State}

/-! ### The command word (30_encoding.md R80 to R85) -/

/-- Fields of a word from bit `k` up are 0 exactly when the word is below `2^k`. -/
theorem extractLsb'_eq_zero_iff {k n : Nat} (hkn : k + n = 32) (w : Word) :
    w.extractLsb' k n = 0#n ↔ w.toNat < 2 ^ k := by
  rw [← BitVec.toNat_inj, BitVec.extractLsb'_toNat, BitVec.toNat_zero, Nat.shiftRight_eq_div_pow]
  have hlt : w.toNat / 2 ^ k < 2 ^ n := Nat.div_lt_of_lt_mul (by rw [← Nat.pow_add, hkn]; exact w.isLt)
  rw [Nat.mod_eq_of_lt hlt, Nat.div_eq_zero_iff_lt (Nat.two_pow_pos k)]

theorem opcOf_toNat (w : Word) : (opcOf w).toNat = w.toNat % 16 := by
  rw [opcOf, BitVec.extractLsb'_toNat, Nat.shiftRight_zero]

theorem opcOf_eq_iff {w : Word} {c : BitVec 4} : opcOf w = c ↔ w.toNat % 16 = c.toNat := by
  rw [← BitVec.toNat_inj, opcOf_toNat]

theorem valOf_eq (w : Word) : valOf w = BitVec.ofNat 8 (w.toNat / 16) := by
  rw [valOf, BitVec.extractLsb', Nat.shiftRight_eq_div_pow]

theorem bitOf_eq (w : Word) : bitOf w = (w.toNat / 4096 % 2 == 1) := by
  rw [bitOf, BitVec.getLsbD, Nat.testBit_eq_decide_div_mod_eq, beq_eq_decide]

/-- The opcodes of format N (R82). -/
theorem formatN_eq_some {c : BitVec 4} {i : Instr} : formatN c = some i ↔
    (i = .encode ∧ c = 1#4) ∨ (i = .decode ∧ c = 2#4) ∨ (i = .embed ∧ c = 4#4) ∨ (i = .extract ∧ c = 5#4) ∨
      (i = .encrypt ∧ c = 6#4) ∨ (i = .decrypt ∧ c = 7#4) := by
  constructor
  · intro h
    unfold formatN at h
    split at h <;> next hc => cases h <;> simp [← BitVec.toNat_inj, hc]
  · rintro (⟨rfl, rfl⟩ | ⟨rfl, rfl⟩ | ⟨rfl, rfl⟩ | ⟨rfl, rfl⟩ | ⟨rfl, rfl⟩ | ⟨rfl, rfl⟩) <;> rfl

/-- R85 field by field: a legal word is that of SUB with its operands, or a format-N opcode with no bit above it. -/
theorem decode_eq_ok {w : Word} {i : Instr} : decode w = .ok i ↔
    (opcOf w = 3#4 ∧ w.toNat < 2 ^ 13 ∧ i = .sub (valOf w) (bitOf w)) ∨
      (formatN (opcOf w) = some i ∧ w.toNat < 2 ^ 4) := by
  rw [← extractLsb'_eq_zero_iff (k := 13) (n := 19) rfl, ← extractLsb'_eq_zero_iff (k := 4) (n := 28) rfl]
  unfold decode
  by_cases hsub : opcOf w = 3#4
  · rw [if_pos hsub, hsub, show formatN 3#4 = none from rfl]
    by_cases hres : w.extractLsb' 13 19 = 0#19
    · simp [hres, eq_comm]
    · simp [hres]
  · rw [if_neg hsub]
    cases formatN (opcOf w) with
    | none => simp [hsub]
    | some j =>
      by_cases hres : w.extractLsb' 4 28 = 0#28
      · simp [hres, hsub]
      · simp [hres, hsub]

/-- The word of a format-N command is its opcode. -/
theorem eq_ofNat_iff_opcOf {w : Word} {n : Nat} (hn : n < 16) :
    w = BitVec.ofNat 32 n ↔ opcOf w = BitVec.ofNat 4 n ∧ w.toNat < 2 ^ 4 := by
  rw [opcOf_eq_iff, ← BitVec.toNat_inj, BitVec.toNat_ofNat, BitVec.toNat_ofNat]
  omega

/-- The fixed fields of a SUB word (R81, R84). -/
theorem subWord_iff (w : Word) : (w &&& 0xF#32 = 3#32 ∧ w >>> 13 = 0#32) ↔ opcOf w = 3#4 ∧ w.toNat < 2 ^ 13 := by
  have hlow : (w &&& 0xF#32).toNat = w.toNat % 16 := by
    rw [BitVec.toNat_and]; exact Nat.and_two_pow_sub_one_eq_mod w.toNat 4
  have hhigh : (w >>> 13).toNat = w.toNat / 2 ^ 13 := by
    rw [BitVec.toNat_ushiftRight, Nat.shiftRight_eq_div_pow]
  rw [opcOf_eq_iff, ← BitVec.toNat_inj, ← BitVec.toNat_inj, hlow, hhigh]
  simp only [BitVec.toNat_ofNat]
  omega

/-- The format-N commands and their words (R82). -/
theorem formatN_word {w : Word} {i : Instr} : (formatN (opcOf w) = some i ∧ w.toNat < 2 ^ 4) ↔
    (i = .encode ∧ w = 1#32) ∨ (i = .decode ∧ w = 2#32) ∨ (i = .embed ∧ w = 4#32) ∨ (i = .extract ∧ w = 5#32) ∨
      (i = .encrypt ∧ w = 6#32) ∨ (i = .decrypt ∧ w = 7#32) := by
  rw [formatN_eq_some, eq_ofNat_iff_opcOf (n := 1) (by decide), eq_ofNat_iff_opcOf (n := 2) (by decide),
    eq_ofNat_iff_opcOf (n := 4) (by decide), eq_ofNat_iff_opcOf (n := 5) (by decide),
    eq_ofNat_iff_opcOf (n := 6) (by decide), eq_ofNat_iff_opcOf (n := 7) (by decide)]
  simp only [or_and_right, and_assoc]

/-- R85 word by word. -/
theorem decode_eq_ok_word {w : Word} {i : Instr} : decode w = .ok i ↔
    ((i = .encode ∧ w = 1#32) ∨ (i = .decode ∧ w = 2#32) ∨ (i = .embed ∧ w = 4#32) ∨ (i = .extract ∧ w = 5#32) ∨
      (i = .encrypt ∧ w = 6#32) ∨ (i = .decrypt ∧ w = 7#32) ∨
      (w &&& 0xF#32 = 3#32 ∧ w >>> 13 = 0#32 ∧
        i = .sub (BitVec.ofNat 8 (w.toNat / 16)) (w.toNat / 4096 % 2 == 1))) := by
  rw [decode_eq_ok, formatN_word, ← and_assoc, ← subWord_iff, valOf_eq, bitOf_eq, or_comm]
  simp only [or_assoc, and_assoc]

/-! ### The legal words and their number -/

/-- The words of the format-N commands (R82). -/
def formatNWords : Finset Word := {1#32, 2#32, 4#32, 5#32, 6#32, 7#32}

/-- The SUB words: any value of the nine operand bits above the opcode (R84). -/
def subWords : Finset Word := (Finset.range (2 ^ 9)).image fun k => BitVec.ofNat 32 (16 * k + 3)

/-- The legal words (R85). -/
def legalWords : Finset Word := formatNWords ∪ subWords

theorem mem_formatNWords {w : Word} : w ∈ formatNWords ↔ ∃ i, formatN (opcOf w) = some i ∧ w.toNat < 2 ^ 4 := by
  simp only [formatNWords, Finset.mem_insert, Finset.mem_singleton, formatN_word, exists_or, exists_eq_left]

theorem mem_subWords {w : Word} : w ∈ subWords ↔ opcOf w = 3#4 ∧ w.toNat < 2 ^ 13 := by
  simp only [subWords, Finset.mem_image, Finset.mem_range, ← BitVec.toNat_inj, opcOf_toNat, BitVec.toNat_ofNat]
  constructor
  · rintro ⟨k, hk, hw⟩
    omega
  · rintro ⟨hopc, hlt⟩
    exact ⟨w.toNat / 16, by omega, by omega⟩

theorem mem_legalWords {w : Word} : w ∈ legalWords ↔ ∃ i, decode w = .ok i := by
  rw [legalWords, Finset.mem_union, mem_formatNWords, mem_subWords, or_comm]
  simp only [decode_eq_ok, exists_or, exists_and_left, exists_eq, and_true]

theorem card_subWords : subWords.card = 2 ^ 9 := by
  rw [subWords, Finset.card_image_of_injOn, Finset.card_range]
  intro j hj k hk h
  simp only [Finset.coe_range, Set.mem_Iio] at hj hk
  simp only [← BitVec.toNat_inj, BitVec.toNat_ofNat] at h
  omega

theorem disjoint_formatNWords_subWords : Disjoint formatNWords subWords := by
  rw [Finset.disjoint_left]
  intro w hw hsub
  obtain ⟨hopc, -⟩ := mem_subWords.1 hsub
  simp only [formatNWords, Finset.mem_insert, Finset.mem_singleton] at hw
  rcases hw with rfl | rfl | rfl | rfl | rfl | rfl <;> exact absurd hopc (by decide)

/-- There are `6 + 2^9` legal words (R85). -/
theorem card_legalWords : legalWords.card = 6 + 2 ^ 9 := by
  rw [legalWords, Finset.card_union_of_disjoint disjoint_formatNWords_subWords, card_subWords]
  rfl

theorem runCommand_of_not_legal {w : Word} (h : ∀ i, decode w ≠ .ok i) (s : State) :
    runCommand w s = .next (s.setStatus .illegalCommand) := by
  cases hd : decode w with
  | ok i => exact absurd hd (h i)
  | error e => exact runCommand_of_decode_error hd s

/-! ### The host scripts that load the buffers (30_encoding.md R89) -/

/-- A write of a register other than CMD stores its value. -/
theorem runEvent_wr {r : Reg} (h : r ≠ .cmd) (v : Word) (s : State) : runEvent (wr r v) s = .next (writeReg v s r) := by
  cases r with
  | cmd => exact absurd rfl h
  | _ => rfl

/-- A run whose first act completes. -/
theorem runScript_cons {e : HostEvent} {l : List HostEvent} (h : runEvent e s = .next t) :
    runScript s (e :: l) = runScript t l := by
  rw [runScript, h]

theorem runScript_singleton (s : State) (e : HostEvent) : runScript s [e] = runEvent e s := by
  rw [runScript]
  cases runEvent e s <;> rfl

/-- The byte writes of `loadmsg` store the message from byte `k` on. -/
theorem runScript_messageWrites (m : List Byte) : ∀ (k : Nat) (s : State), k + m.length ≤ 8191 →
    runScript s (messageWrites k m) = .next { s with msg := Memory.writeFrom s.msg k m } := by
  induction m with
  | nil => intro k s _; rfl
  | cons v m ih =>
    intro k s hk
    rw [List.length_cons] at hk
    rw [messageWrites, runScript_cons (runEvent_wrbMsg (by omega) v s), ih _ _ (by omega), Memory.writeFrom_cons]

theorem runScript_loadmsg {m : List Byte} (h : m.length ≤ 8191) (s : State) :
    runScript s (loadmsg m) = .next (s.setMessage m) := by
  rw [loadmsg, runScript_append _ _ _ _ (runScript_messageWrites m 0 s (by omega)), runScript_singleton,
    runEvent_wr (by decide)]
  rfl

/-- Bit `7 - j` of byte `k` of `loadbits` is character `8k + j`, or 0 beyond the string. -/
theorem paddedByte_getLsbD (b : List Bool) (k : Nat) {j : Nat} (hj : j < 8) :
    (paddedByte b k).getLsbD (7 - j) = (b[8 * k + j]?).getD false := by
  have h := packByte_getLsbD (p := (List.range 8).map fun j => (b[8 * k + j]?).getD false) (by simp)
    (Nat.le_of_lt_succ hj)
  rw [List.getElem?_map, List.getElem?_range hj, Option.map_some, Option.some.injEq] at h
  exact h.symm

/-- The first `n` byte writes of `loadbits` store the first `8n` positions of the padded string, and nothing else. -/
theorem runScript_paddedBytes (s : State) (b : List Bool) : ∀ n : Nat, n ≤ Config.bitCapBytes →
    ∃ m, runScript s ((List.range n).map fun k => wrbBits k (paddedByte b k)) = .next { s with bits := m } ∧
      (∀ i, i < 8 * n → Memory.read m i = some ((b[i]?).getD false)) ∧
      ∀ i, 8 * n ≤ i → Memory.read m i = Memory.read s.bits i := by
  intro n
  induction n with
  | zero => intro _; exact ⟨s.bits, rfl, fun i hi => absurd hi (by omega), fun _ _ => rfl⟩
  | succ n ih =>
    intro hn
    obtain ⟨m, hrun, hin, hout⟩ := ih (by omega)
    refine ⟨Memory.writeFrom m (8 * n) (byteBits (paddedByte b n)), ?_, fun i hi => ?_, fun i hi => ?_⟩
    · rw [List.range_succ, List.map_append, runScript_append _ _ _ _ hrun, List.map_singleton, runScript_singleton,
        runEvent_wrbBits (by omega)]
    · rcases Nat.lt_or_ge i (8 * n) with hlt | hge
      · rw [Memory.read_writeFrom_outside _ _ _ (.inl hlt), hin i hlt]
      · obtain ⟨j, rfl⟩ := Nat.exists_eq_add_of_le hge
        have hj : j < 8 := by omega
        rw [read_writeFrom_byteBits hj, paddedByte_getLsbD b n hj]
    · rw [Memory.read_writeFrom_outside _ _ _ (.inr (by rw [byteBits_length]; omega)), hout i (by omega)]

/-! ### What each command writes (30_encoding.md R83) -/

theorem bitsToBytes_length (b : List Bool) : b.length % 8 = 0 → (bitsToBytes b).length = b.length / 8 :=
  bits_byte_induction (P := fun b => (bitsToBytes b).length = b.length / 8) rfl
    (fun p b hp _ ih => by
      rw [bitsToBytes_append hp, List.length_cons, ih, List.length_append, hp, Nat.add_div_left _ (by decide)]) b

theorem embedBits_status {b : List Bool} (h : embedBits b s = .next t) : t.status = .ok := by
  obtain ⟨l, -, rfl⟩ := embedBits_cases.1 h
  rfl

/-- A failed command changes STATUS and, if it is DECRYPT, what the port observer has seen (60_exceptions.md R181). -/
theorem exec_failure {i : Instr} (h : exec i s = .next t) (hf : t.status ≠ .ok) :
    t = { s with status := t.status, portLog := t.portLog } ∧ (i ≠ .decrypt → t.portLog = s.portLog) := by
  cases i with
  | encode =>
    obtain ⟨-, rfl⟩ | ⟨-, m, b, -, -, rfl⟩ := execEncode_cases.1 h
    · exact ⟨rfl, fun _ => rfl⟩
    · exact absurd rfl hf
  | decode =>
    obtain ⟨-, rfl⟩ | ⟨-, -, rfl⟩ | ⟨-, -, p, -, ⟨-, rfl⟩ | ⟨-, -, q, -, rfl⟩⟩ := execDecode_cases.1 h
    · exact ⟨rfl, fun _ => rfl⟩
    · exact ⟨rfl, fun _ => rfl⟩
    · exact ⟨rfl, fun _ => rfl⟩
    · exact absurd rfl hf
  | sub v b =>
    obtain rfl := execSub_cases.1 h
    exact absurd rfl hf
  | embed =>
    obtain ⟨-, rfl⟩ | ⟨-, -, rfl⟩ | ⟨-, -, b, -, hb⟩ := execEmbed_cases.1 h
    · exact ⟨rfl, fun _ => rfl⟩
    · exact ⟨rfl, fun _ => rfl⟩
    · exact absurd (embedBits_status hb) hf
  | extract =>
    obtain ⟨-, rfl⟩ | ⟨-, vs, -, rfl⟩ := execExtract_cases.1 h
    · exact ⟨rfl, fun _ => rfl⟩
    · exact absurd rfl hf
  | encrypt =>
    obtain ⟨-, rfl⟩ | ⟨-, -, rfl⟩ | ⟨-, -, m, b, -, -, hb⟩ := execEncrypt_cases.1 h
    · exact ⟨rfl, fun _ => rfl⟩
    · exact ⟨rfl, fun _ => rfl⟩
    · exact absurd (embedBits_status hb) hf
  | decrypt =>
    obtain ⟨vs, -, ⟨c, -, rfl⟩ | ⟨m, -, rfl⟩⟩ := execDecrypt_cases.1 h
    · exact ⟨rfl, fun hne => absurd rfl hne⟩
    · exact absurd rfl hf

/-- A bit sequence written to BITBUF leaves it as it was beyond the sequence. -/
theorem read_bits_setBitSequence {b : List Bool} {i : Nat} (h : b.length ≤ i) :
    Memory.read (s.setBitSequence b).bits i = Memory.read s.bits i :=
  Memory.read_writeFrom_outside _ _ _ (.inr (by rwa [Nat.zero_add]))

/-- A message written to MSG leaves it as it was beyond the message. -/
theorem read_msg_setMessage {m : List Byte} {k : Nat} (h : m.length ≤ k) :
    Memory.read (s.setMessage m).msg k = Memory.read s.msg k :=
  Memory.read_writeFrom_outside _ _ _ (.inr (by rwa [Nat.zero_add]))

theorem encode_writes (h : exec .encode s = .next t) :
    t = { s with status := t.status, bits := t.bits, bitLen := t.bitLen } ∧
      ∀ i, 16 + 8 * s.msgLen.toNat ≤ i → Memory.read t.bits i = Memory.read s.bits i := by
  obtain ⟨-, rfl⟩ | ⟨-, m, b, hm, hb, rfl⟩ := execEncode_cases.1 h
  · exact ⟨rfl, fun _ _ => rfl⟩
  · refine ⟨rfl, fun i hi => read_bits_setBitSequence ?_⟩
    rwa [hb, List.length_append, u16ToBits_length, bytesToBits_length, messageOperand_length hm]

theorem decode_writes (h : exec .decode s = .next t) :
    t = { s with status := t.status, msg := t.msg, msgLen := t.msgLen } ∧
      ∀ p, p.length = 16 → HoldsBits s 0 p →
        ∀ k, bitsToU16 p / 8 ≤ k → Memory.read t.msg k = Memory.read s.msg k := by
  obtain ⟨-, rfl⟩ | ⟨-, -, rfl⟩ | ⟨-, -, p, hp, ⟨-, rfl⟩ | ⟨h8, -, q, hq, rfl⟩⟩ := execDecode_cases.1 h
  · exact ⟨rfl, fun _ _ _ _ _ => rfl⟩
  · exact ⟨rfl, fun _ _ _ _ _ => rfl⟩
  · exact ⟨rfl, fun _ _ _ _ _ => rfl⟩
  · refine ⟨rfl, fun p' hlen hp' k hk => ?_⟩
    have hp16 : bitsOperand s 0 16 = some p' := hlen ▸ bitsOperand_of_holds hp'
    cases hp.symm.trans hp16
    rw [← bitsOperand_length hq] at h8 hk
    exact read_msg_setMessage (by rwa [bitsToBytes_length q h8])

theorem sub_writes {v : Byte} {b : Bool} (h : exec (.sub v b) s = .next t) :
    t = { s with status := .ok, subResult := t.subResult } := by
  obtain rfl := execSub_cases.1 h
  rfl

/-- STATUS, the port observer's log and the blue values of the first `n` pixels of the traversal order are all that can
differ between the two states. -/
def WritesBlues (n : Nat) (s t : State) : Prop :=
  t = { s with status := t.status, image := t.image, portLog := t.portLog } ∧
    t.image.width = s.image.width ∧ t.image.height = s.image.height ∧
    ∀ x y c, (c = .blue → ∀ i, i < n → pixelOf i s.height.toNat ≠ (x, y)) →
      pixRead t.image x y c = pixRead s.image x y c

theorem setStatus_writesBlues (n : Nat) (s : State) (c : StatusCode) : WritesBlues n s (s.setStatus c) :=
  ⟨rfl, rfl, rfl, fun _ _ _ _ => rfl⟩

theorem embedBits_writesBlues {b : List Bool} (hb : b.length ≤ s.width.toNat * s.height.toNat)
    (h : embedBits b s = .next t) : WritesBlues b.length s t := by
  have hframe := embedBits_frame hb h
  obtain ⟨l, -, rfl⟩ := embedBits_cases.1 h
  exact ⟨rfl, commitPort_width l s.image, commitPort_height l s.image, hframe⟩

theorem embed_writes (h : exec .embed s = .next t) : WritesBlues s.bitLen.toNat s t := by
  obtain ⟨-, rfl⟩ | ⟨-, -, rfl⟩ | ⟨-, hfits, b, hb, hembed⟩ := execEmbed_cases.1 h
  · exact setStatus_writesBlues _ _ _
  · exact setStatus_writesBlues _ _ _
  · rw [← bitsOperand_length hb] at hfits ⊢
    exact embedBits_writesBlues hfits hembed

theorem encrypt_writes (h : exec .encrypt s = .next t) : WritesBlues (16 + 8 * s.msgLen.toNat) s t := by
  obtain ⟨-, rfl⟩ | ⟨-, -, rfl⟩ | ⟨-, hfits, m, b, hm, rfl, hembed⟩ := execEncrypt_cases.1 h
  · exact setStatus_writesBlues _ _ _
  · exact setStatus_writesBlues _ _ _
  · have hlen : (u16ToBits (8 * m.length) ++ bytesToBits m).length = 16 + 8 * s.msgLen.toNat := by
      rw [List.length_append, u16ToBits_length, bytesToBits_length, messageOperand_length hm]
    rw [← hlen] at hfits ⊢
    exact embedBits_writesBlues hfits hembed

/-- A grid the extracting stage could read gives its blue values by their place in the traversal order. -/
theorem readBlues_traversal {vs : List Byte}
    (h : readBlues s.image (traversal s.width.toNat s.height.toNat) = some vs) :
    vs.length = s.width.toNat * s.height.toNat ∧ ∀ i, i < s.width.toNat * s.height.toNat →
      pixRead s.image (pixelOf i s.height.toNat).1 (pixelOf i s.height.toNat).2 .blue = vs[i]? := by
  obtain ⟨us, hus, hlen, hread⟩ := readBlues_of_loaded (blueLoaded_of_readBlues h)
  cases h.symm.trans hus
  exact ⟨hlen, hread⟩

theorem extract_writes (h : exec .extract s = .next t) :
    t = { s with status := t.status, bits := t.bits, bitLen := t.bitLen, portLog := t.portLog } ∧
      ∀ i, s.width.toNat * s.height.toNat ≤ i → Memory.read t.bits i = Memory.read s.bits i := by
  obtain ⟨-, rfl⟩ | ⟨-, vs, hvs, rfl⟩ := execExtract_cases.1 h
  · exact ⟨rfl, fun _ _ => rfl⟩
  · refine ⟨rfl, fun i hi => read_bits_setBitSequence ?_⟩
    rwa [List.length_map, (readBlues_traversal hvs).1]

/-- The first 16 bits an extract reads are the parities of the first 16 pixels of the traversal order. -/
theorem take_parities_eq {vs : List Byte} {p : List Bool}
    (h : readBlues s.image (traversal s.width.toNat s.height.toNat) = some vs) (h16 : 16 ≤ vs.length)
    (hlen : p.length = 16) (hp : ∀ j, j < 16 →
      (pixRead s.image (pixelOf j s.height.toNat).1 (pixelOf j s.height.toNat).2 .blue).map parity = p[j]?) :
    (vs.map parity).take 16 = p := by
  obtain ⟨hvlen, hread⟩ := readBlues_traversal h
  refine List.ext_getElem? fun j => ?_
  rcases Nat.lt_or_ge j 16 with hj | hj
  · rw [List.getElem?_take_of_lt hj, List.getElem?_map, ← hread j (by omega), hp j hj]
  · rw [List.getElem?_take_eq_none hj, List.getElem?_eq_none (by omega)]

theorem decrypt_writes (h : exec .decrypt s = .next t) :
    t = { s with status := t.status, msg := t.msg, msgLen := t.msgLen, portLog := t.portLog } ∧
      ∀ p, p.length = 16 →
        (∀ j, j < 16 →
          (pixRead s.image (pixelOf j s.height.toNat).1 (pixelOf j s.height.toNat).2 .blue).map parity = p[j]?) →
        ∀ k, bitsToU16 p / 8 ≤ k → Memory.read t.msg k = Memory.read s.msg k := by
  obtain ⟨vs, hvs, ⟨c, -, rfl⟩ | ⟨m, hm, rfl⟩⟩ := execDecrypt_cases.1 h
  · exact ⟨rfl, fun _ _ _ _ _ => rfl⟩
  · refine ⟨rfl, fun p hlen hp k hk => ?_⟩
    obtain ⟨h16, h8, hL, rfl⟩ := codecDecode_eq_ok.1 hm
    rw [take_parities_eq hvs (by rwa [List.length_map] at h16) hlen hp] at h8 hL ⊢
    have hq : (((vs.map parity).drop 16).take (bitsToU16 p)).length = bitsToU16 p := by
      rw [List.length_take, List.length_drop]
      omega
    exact read_msg_setMessage (s := s) (by rwa [bitsToBytes_length _ (by rwa [hq]), hq])

end Sys2Proof.Machine
end

section
/-! SUPPORT. The statements about the encoding (30_encoding.md), settled. -/

namespace Sys2Proof.Machine

/-- Settles O3: the fields of a legal word, and the legal words counted as those of format N and those of SUB. -/
theorem decodeCmdOnEveryWord : Obligations.DecodeCmdOnEveryWord :=
  ⟨fun _ _ => decode_eq_ok_word, fun _ s h => runCommand_of_not_legal h s,
    (Nat.subtype_card legalWords fun _ => mem_legalWords).trans card_legalWords⟩

/-- Settles O43: what each command writes, by the cases behind its next state. -/
theorem commandWriteSets : Obligations.CommandWriteSets := fun _ _ =>
  ⟨fun _ h hf => (exec_failure h hf).1, encode_writes, decode_writes, fun _ _ => sub_writes, embed_writes,
    extract_writes, encrypt_writes, decrypt_writes⟩

/-- Settles O51: `loadmsg` is `setMessage`. -/
theorem loadmsgLoadsTheMessage : Obligations.LoadmsgLoadsTheMessage := by
  intro s m hm
  refine ⟨_, runScript_loadmsg hm s, ?_, holdsMessage_setMessage m,
    fun k hk => read_msg_setMessage hk, rfl⟩
  rw [setMessage_msgLen, BitVec.toNat_ofNat]
  omega

/-- Settles O52: the byte writes store the padded string, by induction on their number; then BIT_LEN is written. -/
theorem loadbitsLoadsTheBits : Obligations.LoadbitsLoadsTheBits := by
  intro s b hb
  have hcap := bitCap_upper
  obtain ⟨m, hrun, hin, hout⟩ := runScript_paddedBytes s b ((b.length + 7) / 8) (by rw [bitCap_eq] at hb; omega)
  refine ⟨{ s with bits := m, bitLen := BitVec.ofNat 32 b.length }, ?_, ?_, fun j hj => ?_, fun i hi hpad => ?_,
    hout, rfl⟩
  · rw [loadbits, runScript_append _ _ _ _ hrun, runScript_singleton, runEvent_wr (by decide)]
    rfl
  · rw [BitVec.toNat_ofNat]
    omega
  · rw [Nat.zero_add, hin j (by omega), List.getElem?_eq_getElem hj]
    rfl
  · rw [hin i hpad, List.getElem?_eq_none hi]
    rfl

end Sys2Proof.Machine
end

section
/-! SUPPORT. Laws of the Bit Codec's functions, on which the statements about the Bit Codec rest: the value of a bit
sequence, the bytes of a bit sequence, and what `decode` reads of one. -/

namespace Sys2Proof.Machine

/-! ### The value of a bit sequence (40_bit_codec.md R101, R102) -/

/-- The first bit of a sequence is its most significant one. -/
theorem bitsValue_cons (b : Bool) (p : List Bool) :
    bitsValue 0 (b :: p) = b.toNat * 2 ^ p.length + bitsValue 0 p := by
  rw [bitsValue, bitsValue_eq, Nat.mul_zero, Nat.zero_add]

/-- The value of a sequence as the sum of its bits, each with the weight of its position. -/
theorem bitsValue_eq_sum (p : List Bool) : bitsValue 0 p =
    ((List.range p.length).map fun j => ((p[j]?).getD false).toNat * 2 ^ (p.length - 1 - j)).sum := by
  induction p with
  | nil => rfl
  | cons b p ih =>
    rw [bitsValue_cons, ih, List.length_cons, List.range_succ_eq_map, List.map_cons, List.map_map, List.sum_cons]
    simp [Function.comp_def, Nat.sub_sub, Nat.add_comm]

/-- The value of a sequence keeps each of its bits. -/
theorem getElem?_eq_testBit_bitsValue (p : List Bool) : ∀ {j : Nat}, j < p.length →
    p[j]? = some ((bitsValue 0 p).testBit (p.length - 1 - j)) := by
  induction p with
  | nil => intro j hj; exact absurd hj (Nat.not_lt_zero j)
  | cons b p ih =>
    intro j hj
    rw [bitsValue_cons, Nat.mul_comm, Nat.testBit_two_pow_mul_add _ (bitsValue_lt p), List.length_cons]
    cases j with
    | zero => cases b <;> simp
    | succ j =>
      have hj' : j < p.length := Nat.lt_of_succ_lt_succ hj
      rw [if_pos (by omega), List.getElem?_cons_succ, ih hj',
        show p.length + 1 - 1 - (j + 1) = p.length - 1 - j by omega]

/-- The lowest `n` bits of a number, most significant first, have its value modulo `2^n`. -/
theorem bitsValue_testBits (L n : Nat) :
    bitsValue 0 ((List.range n).map fun j => L.testBit (n - 1 - j)) = L % 2 ^ n := by
  induction n with
  | zero => rw [Nat.pow_zero, Nat.mod_one]; rfl
  | succ n ih =>
    rw [List.range_succ_eq_map, List.map_cons, List.map_map, bitsValue_cons, Nat.mod_pow_succ,
      ← Nat.toNat_testBit, ← ih]
    simp [Function.comp_def, Nat.sub_sub, Nat.mul_comm, Nat.add_comm]

theorem u16ToBits_getElem? (L : Nat) {j : Nat} (hj : j < 16) : (u16ToBits L)[j]? = some (L.testBit (15 - j)) := by
  rw [u16ToBits, List.getElem?_map, List.getElem?_range hj, Option.map_some]

theorem bitsToU16_u16ToBits {L : Nat} (h : L < 65536) : bitsToU16 (u16ToBits L) = L :=
  (bitsValue_testBits L 16).trans (Nat.mod_eq_of_lt h)

theorem u16ToBits_bitsToU16 {p : List Bool} (h : p.length = 16) : u16ToBits (bitsToU16 p) = p := by
  refine List.ext_getElem? fun j => ?_
  rcases Nat.lt_or_ge j 16 with hj | hj
  · rw [u16ToBits_getElem? _ hj, getElem?_eq_testBit_bitsValue p (h ▸ hj), h]; rfl
  · rw [List.getElem?_eq_none (by rwa [u16ToBits_length]), List.getElem?_eq_none (by rwa [h])]

theorem bitsToU16_eq_sum {p : List Bool} (h : p.length = 16) :
    bitsToU16 p = ((List.range 16).map fun j => ((p[j]?).getD false).toNat * 2 ^ (15 - j)).sum := by
  rw [bitsToU16, bitsValue_eq_sum, h]

/-! ### The bytes of a bit sequence (40_bit_codec.md R103, R104) -/

theorem packByte_toNat {p : List Bool} (h : p.length = 8) :
    (packByte p).toNat = ((List.range 8).map fun j => ((p[j]?).getD false).toNat * 2 ^ (7 - j)).sum := by
  have hlt : bitsValue 0 p < 2 ^ 8 := h ▸ bitsValue_lt p
  rw [packByte, BitVec.toNat_ofNat, Nat.mod_eq_of_lt hlt, bitsValue_eq_sum, h]

/-- Byte `k` packs the eight bits from position `8k` on. -/
theorem bitsToBytes_getElem? (s : List Bool) : s.length % 8 = 0 → ∀ k, k < s.length / 8 →
    (bitsToBytes s)[k]? = some (packByte ((s.drop (8 * k)).take 8)) :=
  bits_byte_induction
    (P := fun s => ∀ k, k < s.length / 8 → (bitsToBytes s)[k]? = some (packByte ((s.drop (8 * k)).take 8)))
    (fun k hk => absurd hk (Nat.not_lt_zero k))
    (fun p s hp _ ih k hk => by
      rw [bitsToBytes_append hp]
      cases k with
      | zero => rw [Nat.mul_zero, List.drop_zero, List.take_left' hp]; rfl
      | succ k =>
        rw [List.length_append] at hk
        rw [List.getElem?_cons_succ, ih k (by omega), show 8 * (k + 1) = p.length + 8 * k by omega,
          List.drop_length_add_append]) s

theorem bitsToBytes_bytesToBits (m : List Byte) : bitsToBytes (bytesToBits m) = m := by
  induction m with
  | nil => rfl
  | cons x m ih => rw [bytesToBits_cons, bitsToBytes_append (byteBits_length x), packByte_byteBits, ih]

theorem bytesToBits_bitsToBytes (s : List Bool) : s.length % 8 = 0 → bytesToBits (bitsToBytes s) = s :=
  bits_byte_induction (P := fun s => bytesToBits (bitsToBytes s) = s) rfl
    (fun p s hp _ ih => by rw [bitsToBytes_append hp, bytesToBits_cons, byteBits_packByte hp, ih]) s

/-! ### `encode` and `decode` (40_bit_codec.md R110 to R115) -/

theorem codecEncode_tooLong {m : List Byte} (h : 65536 ≤ 8 * m.length) : codecEncode m = .error .messageTooLong := by
  rw [codecEncode, if_pos ((messageTooLong_iff _).2 h)]

/-- `decode` of an encoded message gives the message, whatever bits come after it. -/
theorem codecDecode_encoded {m : List Byte} (h : 8 * m.length < 65536) (t : List Bool) :
    codecDecode (u16ToBits (8 * m.length) ++ bytesToBits m ++ t) = .ok m := by
  have hprefix : bitsToU16 ((u16ToBits (8 * m.length) ++ bytesToBits m ++ t).take 16) = 8 * m.length := by
    rw [List.append_assoc, List.take_left' (u16ToBits_length _), bitsToU16_u16ToBits h]
  have hlen : (u16ToBits (8 * m.length) ++ bytesToBits m ++ t).length = 16 + 8 * m.length + t.length := by
    rw [List.length_append, List.length_append, u16ToBits_length, bytesToBits_length]
  rw [codecDecode_eq_ok, hprefix, hlen]
  refine ⟨by omega, by omega, by omega, ?_⟩
  rw [List.append_assoc, List.drop_left' (u16ToBits_length _), List.take_left' (bytesToBits_length m),
    bitsToBytes_bytesToBits]

/-- `decode` depends on the length field, the message bits it counts, and whether there are so many. -/
theorem codecDecode_congr {s s' : List Bool} {L : Nat} (h : 16 ≤ s.length) (h' : 16 ≤ s'.length)
    (hL : bitsToU16 (s.take 16) = L) (hagree : s.take (16 + L) = s'.take (16 + L))
    (htest : s.length - 16 < L ↔ s'.length - 16 < L) : codecDecode s = codecDecode s' := by
  have hprefix : s.take 16 = s'.take 16 := by
    simpa [List.take_take] using congrArg (List.take 16) hagree
  have hmessage : (s.drop 16).take L = (s'.drop 16).take L := by
    simpa [List.drop_take] using congrArg (List.drop 16) hagree
  have hL' : bitsToU16 (s'.take 16) = L := hprefix ▸ hL
  by_cases hbad : L % 8 ≠ 0 ∨ s.length - 16 < L
  · rw [codecDecode_malformed (.inr (by rwa [hL])), codecDecode_malformed (.inr (by rwa [hL', ← htest]))]
  · rw [codecDecode_sound h (by omega) (by omega), codecDecode_sound h' (by omega) (by omega), hL, hL', hmessage]

/-- A decoded message has as many bits as its length field says. -/
theorem length_of_codecDecode {s : List Bool} {m : List Byte} (h : codecDecode s = .ok m) :
    8 * m.length = bitsToU16 (s.take 16) := by
  obtain ⟨-, h8, hL, rfl⟩ := codecDecode_eq_ok.1 h
  have hlen : ((s.drop 16).take (bitsToU16 (s.take 16))).length = bitsToU16 (s.take 16) := by
    rw [List.length_take, List.length_drop]; omega
  rw [bitsToBytes_length _ (by rwa [hlen]), hlen]
  omega

end Sys2Proof.Machine
end

section
/-! SUPPORT. The statements about the Bit Codec (40_bit_codec.md), settled. -/

namespace Sys2Proof.Machine

/-- Settles O7: the length and the bits of a message's sequence, each by induction on the message. -/
theorem bytesToBitsIsMsbFirst : Obligations.BytesToBitsIsMsbFirst :=
  ⟨bytesToBits_nil, fun m => ⟨bytesToBits_length m, fun k _ => bytesToBits_getElem? m k⟩⟩

/-- Settles O8: the bits of the length field by position, and its value as the sum that `bitsValue` is. -/
theorem prefixIsSixteenBitsBigEndian : Obligations.PrefixIsSixteenBitsBigEndian :=
  ⟨fun L _ => ⟨u16ToBits_length L, fun _ => u16ToBits_getElem? L⟩, fun _ => bitsToU16_eq_sum⟩

/-- Settles O9: byte `k` packs the group of eight bits at `8k`, and its number is the value of that group. -/
theorem bitsToBytesIsMsbFirst : Obligations.BitsToBytesIsMsbFirst := by
  intro s h8
  refine ⟨bitsToBytes_length s h8, fun k hk => ⟨_, bitsToBytes_getElem? s h8 k hk, ?_⟩⟩
  rw [packByte_toNat (by rw [List.length_take, List.length_drop]; omega)]
  refine congrArg List.sum (List.map_congr_left fun j hj => ?_)
  rw [List.getElem?_take_of_lt (List.mem_range.1 hj), List.getElem?_drop]

/-- Settles O10: bytes by induction over groups of eight bits, prefixes bit by bit. -/
theorem bitAndByteFunctionsAreInverse : Obligations.BitAndByteFunctionsAreInverse :=
  ⟨bitsToBytes_bytesToBits, bytesToBits_bitsToBytes, fun _ => bitsToU16_u16ToBits, fun _ => u16ToBits_bitsToU16⟩

/-- Settles O11: an encoded sequence is the length field followed by the message bits. -/
theorem encodedSequenceShape : Obligations.EncodedSequenceShape := by
  refine ⟨fun m s h => ?_, codecEncode_eq_ok.2 ⟨by decide, by decide⟩⟩
  obtain ⟨-, rfl⟩ := codecEncode_eq_ok.1 h
  refine ⟨by rw [List.length_append, u16ToBits_length, bytesToBits_length], List.take_left' (u16ToBits_length _),
    fun k j _ hj => ?_⟩
  rw [List.getElem?_append_right (by rw [u16ToBits_length]; omega), u16ToBits_length, ← bytesToBits_getElem? m k hj,
    show 16 + 8 * k + j - 16 = 8 * k + j by omega]

/-- Settles O12: both sequences fail the same tests of `decode`, or neither fails and the message bits are the same. -/
theorem trailingBitsAreIgnored : Obligations.TrailingBitsAreIgnored :=
  fun _ _ h h' => codecDecode_congr h h' rfl

/-- Settles O13: `decode` of an encoded sequence, the limit of `encode`, and the limit a 16-bit length sets. -/
theorem codecRoundTrip : Obligations.CodecRoundTrip := by
  refine ⟨fun m hm => ?_, fun m hm => codecEncode_tooLong (by omega), fun s m h => ?_⟩
  · have hfits : 8 * m.length < 65536 := by omega
    exact ⟨_, codecEncode_eq_ok.2 ⟨hfits, rfl⟩, codecDecode_encoded hfits⟩
  · obtain ⟨h16, -⟩ := codecDecode_eq_ok.1 h
    have hlt : bitsToU16 (s.take 16) < 65536 := bitsToU16_lt (by rw [List.length_take]; omega)
    rw [← length_of_codecDecode h] at hlt
    omega

end Sys2Proof.Machine
end

section
/-! SUPPORT. Laws of the Pixel Channel Mapper's functions, on which the statements about the mapper rest: the adjusted
blue value, and the map an embed builds. -/

namespace Sys2Proof.Machine

/-! ### The adjusted blue value (41_pixel_mapper.md R130, R131, R137) -/

section
variable {v : Byte} {b : Bool}

/-- Parity is the remainder modulo 2 (R130). -/
theorem parity_eq_iff : parity v = b ↔ v.toNat % 2 = b.toNat := by
  rw [parity, ← BitVec.testBit_toNat, Nat.testBit_zero]
  cases b
  · simp
  · simp

theorem subParity_of_parity_eq (h : parity v = b) : subParity v b = v := if_pos h

theorem subParity_of_parity_ne (h : parity v ≠ b) : subParity v b = v + 1#8 := if_neg h

theorem toNat_incremented (v : Byte) : (v + 1#8).toNat = (v.toNat + 1) % 256 := BitVec.toNat_add ..

/-- An increment flips the parity, also where 255 wraps to 0: 256 is even. -/
theorem parity_incremented (h : parity v ≠ b) : parity (v + 1#8) = b := by
  rw [ne_eq, parity_eq_iff] at h
  rw [parity_eq_iff, toNat_incremented]
  have hb := b.toNat_lt
  omega

@[simp] theorem parity_subParity (v : Byte) (b : Bool) : parity (subParity v b) = b := by
  by_cases h : parity v = b
  · rwa [subParity_of_parity_eq h]
  · rw [subParity_of_parity_ne h, parity_incremented h]

/-- R131 in the numbers of the rule. -/
theorem subParity_eq_ite (v : Byte) (b : Bool) :
    subParity v b = if v.toNat % 2 = b.toNat then v else BitVec.ofNat 8 ((v.toNat + 1) % 256) := by
  have hinc : v + 1#8 = BitVec.ofNat 8 ((v.toNat + 1) % 256) := by
    rw [← toNat_incremented, BitVec.ofNat_toNat, BitVec.setWidth_eq]
  simp only [subParity, parity_eq_iff, hinc]

theorem subParity_eq_or (v : Byte) (b : Bool) :
    subParity v b = v ∨ (subParity v b).toNat = (v.toNat + 1) % 256 := by
  by_cases h : parity v = b
  · exact .inl (subParity_of_parity_eq h)
  · exact .inr (by rw [subParity_of_parity_ne h, toNat_incremented])

/-- Only the increment of 255, which is odd, makes a value smaller. -/
theorem eq_of_subParity_lt (h : (subParity v b).toNat < v.toNat) : v = 255#8 ∧ b = false := by
  have hne : parity v ≠ b := fun he => by rw [subParity_of_parity_eq he] at h; omega
  rw [subParity_of_parity_ne hne, toNat_incremented] at h
  have hv : v = 255#8 := BitVec.eq_of_toNat_eq (by show v.toNat = 255; omega)
  subst hv
  exact ⟨rfl, (Bool.eq_false_or_eq_true b).resolve_left fun hb => hne hb.symm⟩

end

/-! ### The traversal order (R132) -/

@[simp] theorem traversal_length (W H : Nat) : (traversal W H).length = W * H := by
  rw [traversal_eq_map, List.length_map, List.length_range]

theorem traversal_getElem? {W H i : Nat} (h : i < W * H) : (traversal W H)[i]? = some (pixelOf i H) := by
  rw [traversal_eq_map, List.getElem?_map, List.getElem?_range h]; rfl

theorem height_pos_of_lt {W H i : Nat} (h : i < W * H) : 0 < H := Nat.pos_of_ne_zero fun hH => by simp [hH] at h

/-- A pixel of the grid comes before the end of the traversal order. -/
theorem column_add_row_lt {W H x y : Nat} (hx : x < W) (hy : y < H) : x * H + y < W * H := calc
  x * H + y < x * H + H := Nat.add_lt_add_left hy _
  _ = (x + 1) * H := (Nat.succ_mul x H).symm
  _ ≤ W * H := Nat.mul_le_mul_right H hx

/-! ### The map an embed builds (R134) -/

section
variable {P P' : PixelMap} {W H : Nat} {s : List Bool}

theorem PixelMap.setBlue_same (P : PixelMap) (x y : Nat) (v : Byte) : P.setBlue x y v x y .blue = v :=
  if_pos ⟨rfl, rfl, rfl⟩

theorem PixelMap.setBlue_of_ne {x y x' y' : Nat} {c : Channel} {v : Byte} (h : c = .blue → (x, y) ≠ (x', y')) :
    P.setBlue x y v x' y' c = P x' y' c :=
  if_neg fun ⟨hx, hy, hc⟩ => h hc (by rw [hx, hy])

/-- The loop sets the blue values of its own pixels only. -/
theorem embedLoop_frame {x y : Nat} {c : Channel} (s : List Bool) : ∀ (i : Nat) (P' : PixelMap),
    (c = .blue → ∀ j, j < s.length → pixelOf (i + j) H ≠ (x, y)) → embedLoop P H i s P' x y c = P' x y c := by
  induction s with
  | nil => intro _ _ _; rfl
  | cons b s ih =>
    intro i P' h
    have hrest : c = .blue → ∀ j, j < s.length → pixelOf (i + 1 + j) H ≠ (x, y) := fun hc j hj => by
      rw [Nat.add_right_comm, Nat.add_assoc]
      exact h hc (j + 1) (Nat.succ_lt_succ hj)
    exact (ih (i + 1) _ hrest).trans (PixelMap.setBlue_of_ne fun hc => h hc 0 (Nat.succ_pos _))

/-- The loop adjusts the blue value of each of its pixels: no later position comes back to it. -/
theorem embedLoop_adjusted (hH : 0 < H) (s : List Bool) : ∀ (i : Nat) (P' : PixelMap) (j : Nat) (b : Bool),
    s[j]? = some b → embedLoop P H i s P' (pixelOf (i + j) H).1 (pixelOf (i + j) H).2 .blue =
      subParity (P (pixelOf (i + j) H).1 (pixelOf (i + j) H).2 .blue) b := by
  induction s with
  | nil => intro _ _ _ _ h; cases h
  | cons a s ih =>
    intro i P' j b h
    cases j with
    | zero =>
      cases h
      have hlater : ∀ k, k < s.length → pixelOf (i + 1 + k) H ≠ pixelOf i H := fun k _ he => by
        have := pixelOf_injective hH he
        omega
      exact (embedLoop_frame s (i + 1) _ fun _ => hlater).trans (PixelMap.setBlue_same ..)
    | succ j =>
      rw [show i + (j + 1) = i + 1 + j by omega]
      exact ih (i + 1) _ j b h

theorem embedImg_eq_ok : embedImg s P W H = .ok P' ↔ s.length ≤ W * H ∧ P' = embedLoop P H 0 s P := by
  rw [embedImg]
  split
  · next h => exact ⟨nofun, fun ⟨hfits, _⟩ => absurd ((imageTooSmall_iff _ _).1 h) (Nat.not_lt.2 hfits)⟩
  · next h =>
    rw [imageTooSmall_iff, Nat.not_lt] at h
    exact ⟨fun he => ⟨h, (Except.ok.inj he).symm⟩, fun ⟨_, he⟩ => congrArg Except.ok he.symm⟩

/-- An embed leaves every value but the blue values of the pixels it takes as it was. -/
theorem embedImg_frame (h : embedImg s P W H = .ok P') {x y : Nat} {c : Channel}
    (hc : c = .blue → ∀ i, i < s.length → pixelOf i H ≠ (x, y)) : P' x y c = P x y c := by
  obtain ⟨-, rfl⟩ := embedImg_eq_ok.1 h
  exact embedLoop_frame s 0 P fun hb j hj => by rw [Nat.zero_add]; exact hc hb j hj

theorem embedImg_adjusted (h : embedImg s P W H = .ok P') {i : Nat} {b : Bool} (hb : s[i]? = some b) :
    P' (pixelOf i H).1 (pixelOf i H).2 .blue = subParity (P (pixelOf i H).1 (pixelOf i H).2 .blue) b := by
  obtain ⟨hfits, rfl⟩ := embedImg_eq_ok.1 h
  obtain rfl | hH := eq_nil_or_height_pos hfits
  · cases hb
  · have hloop := embedLoop_adjusted (P := P) hH s 0 P i b hb
    rwa [Nat.zero_add] at hloop

/-- An embed keeps the blue value of every pixel of the grid beyond its sequence. -/
theorem embedImg_beyond (h : embedImg s P W H = .ok P') {i : Nat} (hs : s.length ≤ i) (hi : i < W * H) :
    P' (pixelOf i H).1 (pixelOf i H).2 .blue = P (pixelOf i H).1 (pixelOf i H).2 .blue :=
  embedImg_frame h fun _ j hj he => by
    have := pixelOf_injective (height_pos_of_lt hi) he
    omega

theorem extractImg_length (P : PixelMap) (W H : Nat) : (extractImg P W H).length = W * H := by
  rw [extractImg, List.length_map, traversal_length]

/-- Bit `i` of an extract is the parity of the blue value at position `i` (R135). -/
theorem extractImg_getElem? {i : Nat} (h : i < W * H) :
    (extractImg P W H)[i]? = some (parity (P (pixelOf i H).1 (pixelOf i H).2 .blue)) := by
  rw [extractImg, List.getElem?_map, traversal_getElem? h]; rfl

end

end Sys2Proof.Machine
end

section
/-! SUPPORT. The statements about the Pixel Channel Mapper (41_pixel_mapper.md), settled. -/

namespace Sys2Proof.Machine

/-- Settles O16: the traversal order lists `pixel_of`, and the position of the pixel `(x, y)` is `x * H + y`. -/
theorem traversalIsColumnMajor : Obligations.TraversalIsColumnMajor := by
  refine fun W H => ⟨traversal_length W H, fun i hH hi => ⟨traversal_getElem? hi, rfl, ?_, Nat.mod_lt i hH⟩,
    fun x y hx hy => ?_⟩
  · exact Nat.div_lt_of_lt_mul (by rwa [Nat.mul_comm])
  · have hH : 0 < H := Nat.zero_lt_of_lt hy
    exact ⟨x * H + y, column_add_row_lt hx hy, (pixelOf_eq_iff hH).2 ⟨hy, rfl⟩,
      fun j _ hj => ((pixelOf_eq_iff hH).1 hj).2⟩

/-- Settles O17: the frame of an embed, and `sub` keeps a value that has the parity already. -/
theorem embedImgIsNonDestructive : Obligations.EmbedImgIsNonDestructive := by
  refine fun s P P' W H h => ⟨fun x y c hc => ?_, fun i hs hi => embedImg_beyond h hs hi, fun i b hb hpar => ?_⟩
  · exact embedImg_frame h fun hblue => absurd hblue hc
  · rw [embedImg_adjusted h hb, subParity_of_parity_eq hpar]

/-- Settles O18: an adjusted blue value has the parity of its bit, and the others are as they were. -/
theorem extractUndoesEmbed : Obligations.ExtractUndoesEmbed := by
  refine fun s P P' W H h => ⟨List.ext_getElem? fun i => ?_, fun i hs hi => ?_⟩
  · have hfits := (embedImg_eq_ok.1 h).1
    rcases Nat.lt_or_ge i s.length with hi | hi
    · have hb : s[i]? = some s[i] := List.getElem?_eq_getElem hi
      rw [List.getElem?_take_of_lt hi, extractImg_getElem? (by omega), embedImg_adjusted h hb, parity_subParity, hb]
    · rw [List.getElem?_take_eq_none hi, List.getElem?_eq_none hi]
  · rw [extractImg_getElem? hi, extractImg_getElem? hi, embedImg_beyond h hs hi]

/-- Settles O31: a successful EMBED logs the accesses of its embedding stage, which are the ones R143 lists. -/
theorem embedPortOrder : Obligations.EmbedPortOrder := by
  intro s t V B h hok hV
  obtain ⟨-, rfl⟩ | ⟨-, -, rfl⟩ | ⟨-, -, b, hb, hembed⟩ := execEmbed_cases.1 h
  · cases hok
  · cases hok
  · obtain ⟨l, hl, rfl⟩ := embedBits_cases.1 hembed
    obtain ⟨hlen, hread⟩ := (Memory.readRange_eq_some _ _ _ _).1 hb
    have hl' := embedAccesses_eq b 0 l V B hl fun j hj => by
      obtain ⟨hbit, hblue⟩ := hV j (hlen ▸ hj)
      rw [Nat.zero_add, ← hread j (hlen ▸ hj), Nat.zero_add]
      exact ⟨hbit, hblue⟩
    rw [setStatus_portLog, logPort_portLog, commitPixels_portLog, hl', hlen, List.range_eq_range']

/-- Settles O32: a successful EXTRACT logs the reads of its extracting stage. -/
theorem extractPortOrder : Obligations.ExtractPortOrder := by
  intro s t V h hok hV
  obtain ⟨-, rfl⟩ | ⟨-, vs, hvs, rfl⟩ := execExtract_cases.1 h
  · cases hok
  · rw [setStatus_portLog, setBitSequence_portLog, logPort_portLog, readAccesses_traversal hvs hV]

/-- Settles O14: `sub` in the numbers of R131, and SUB commits it. -/
theorem subCompletesWithTheAdjustedValue : Obligations.SubCompletesWithTheAdjustedValue := by
  intro v b s
  refine ⟨subParity_eq_ite v b, ?_⟩
  rw [← subParity_eq_ite]
  exact execSub_cases.2 rfl

/-- Settles O15: an adjusted value has its parity, so a second adjustment keeps it; only 255 wraps. -/
theorem lawsOfSub : Obligations.LawsOfSub := fun v b =>
  ⟨parity_subParity v b, subParity_of_parity_eq (parity_subParity v b), subParity_eq_or v b, by decide, by decide,
    eq_of_subParity_lt⟩

end Sys2Proof.Machine
end

section
/-! SUPPORT. Laws of the pipeline commands: the embedding and the extracting stage over a loaded image, DECODE as the
codec's `decode`, and that neither pipeline depends on BITBUF, on which the statements about the pipelines rest. -/

namespace Sys2Proof.Machine

variable {s t : State}

/-! ### The first stage of ENCRYPT and the last stage of DECRYPT (40_bit_codec.md R110, R112) -/

theorem encoded_length (m : List Byte) : (u16ToBits (8 * m.length) ++ bytesToBits m).length = 16 + 8 * m.length := by
  rw [List.length_append, u16ToBits_length, bytesToBits_length]

/-- `decode` of a length field, the message bits it counts and any rest gives the bytes of the message bits. -/
theorem codecDecode_append {p q : List Bool} (hp : p.length = 16) (hq : q.length = bitsToU16 p) (h8 : q.length % 8 = 0)
    (r : List Bool) : codecDecode (p ++ q ++ r) = .ok (bitsToBytes q) := by
  have hprefix : bitsToU16 ((p ++ q ++ r).take 16) = q.length := by
    rw [List.append_assoc, List.take_left' hp, hq]
  have hlen : (p ++ q ++ r).length = 16 + q.length + r.length := by
    rw [List.length_append, List.length_append, hp]
  rw [codecDecode_eq_ok, hprefix, hlen]
  refine ⟨by omega, h8, by omega, ?_⟩
  rw [List.append_assoc, List.drop_left' hp, List.take_left' rfl]

/-- MSG_LEN after a message is written: every message `decode` gives is short enough for it. -/
theorem toNat_msgLen_setMessage {m : List Byte} (h : 8 * m.length < 65536) :
    (s.setMessage m).msgLen.toNat = m.length := by
  rw [setMessage_msgLen, BitVec.toNat_ofNat, Nat.mod_eq_of_lt (by omega)]

/-! ### The embedding stage over loaded pixels (41_pixel_mapper.md R141) -/

/-- The embedding stage completes: it adjusts the blue values of its own pixels and changes nothing else. -/
theorem embedBits_of_loaded {b : List Bool} (hb : b.length ≤ s.width.toNat * s.height.toNat)
    (hl : BlueLoaded s.image s.height.toNat b.length) :
    ∃ t, embedBits b s = .next t ∧
      (∀ i x, b[i]? = some x →
        pixRead t.image (pixelOf i s.height.toNat).1 (pixelOf i s.height.toNat).2 .blue =
          (pixRead s.image (pixelOf i s.height.toNat).1 (pixelOf i s.height.toNat).2 .blue).map (subParity · x)) ∧
      (∀ x y c, (c = .blue → ∀ i, i < b.length → pixelOf i s.height.toNat ≠ (x, y)) →
        pixRead t.image x y c = pixRead s.image x y c) ∧
      t.image.width = s.image.width ∧ t.image.height = s.image.height ∧
      t = { s with status := .ok, image := t.image, portLog := t.portLog } := by
  obtain ⟨l, hacc, hadjusted, hframe⟩ := embedAccesses_of_loaded hb hl
  exact ⟨_, embedBits_cases.2 ⟨l, hacc, rfl⟩, hadjusted, hframe, commitPort_width l _, commitPort_height l _, rfl⟩

/-- A blue value that was loaded stays loaded when blue values are only kept or incremented. -/
theorem blueLoaded_of_onlyIncrementsBlue {p q : PixelMemory} {H n : Nat} (h : p.OnlyIncrementsBlue q)
    (hl : BlueLoaded p H n) : BlueLoaded q H n := by
  intro i hi
  obtain hsame | ⟨-, hinc⟩ := h (pixelOf i H).1 (pixelOf i H).2 .blue
  · rw [hsame]; exact hl i hi
  · rw [hinc, Option.isSome_map]; exact hl i hi

/-- ENCRYPT of a message that MSG holds and the image has room for ends in the embedding stage. -/
theorem exec_encrypt_of_holds {m : List Byte} (hn : s.msgLen.toNat = m.length) (hlen : 8 * m.length < 65536)
    (hfits : 16 + 8 * m.length ≤ s.width.toNat * s.height.toNat) (hm : HoldsMessage s m)
    (h : embedBits (u16ToBits (8 * m.length) ++ bytesToBits m) s = .next t) : exec .encrypt s = .next t :=
  execEncrypt_cases.2
    (.inr (.inr ⟨by rwa [hn], by rwa [hn], m, _, by rw [hn]; exact messageOperand_of_holds hm, rfl, h⟩))

/-! ### The extracting stage over a loaded grid (41_pixel_mapper.md R142) -/

/-- What the extracting stage reads begins with a sequence when the first pixels have its bits as their parities. -/
theorem parities_eq_append {vs : List Byte} {b : List Bool}
    (h : readBlues s.image (traversal s.width.toNat s.height.toNat) = some vs)
    (hfits : b.length ≤ s.width.toNat * s.height.toNat) (hb : ∀ i x, b[i]? = some x →
      (pixRead s.image (pixelOf i s.height.toNat).1 (pixelOf i s.height.toNat).2 .blue).map parity = some x) :
    vs.map parity = b ++ (vs.map parity).drop b.length := by
  have htake : (vs.map parity).take b.length = b := by
    refine List.ext_getElem? fun i => ?_
    rcases Nat.lt_or_ge i b.length with hi | hi
    · have hx : b[i]? = some b[i] := List.getElem?_eq_getElem hi
      rw [List.getElem?_take_of_lt hi, List.getElem?_map, ← (readBlues_traversal h).2 i (by omega), hb i _ hx, hx]
    · rw [List.getElem?_take_eq_none hi, List.getElem?_eq_none hi]
  conv_lhs => rw [← List.take_append_drop b.length (vs.map parity), htake]

/-- A grid whose pixels have the bits of a sequence as their parities is loaded, and the extracting stage reads them. -/
theorem readBlues_of_parities {b : List Bool} (hlen : b.length = s.width.toNat * s.height.toNat)
    (hb : ∀ i, i < s.width.toNat * s.height.toNat →
      (pixRead s.image (pixelOf i s.height.toNat).1 (pixelOf i s.height.toNat).2 .blue).map parity = b[i]?) :
    ∃ vs, readBlues s.image (traversal s.width.toNat s.height.toNat) = some vs ∧ vs.map parity = b := by
  have hl : BlueLoaded s.image s.height.toNat (s.width.toNat * s.height.toNat) := fun i hi => by
    rw [← Option.isSome_map (f := parity), hb i hi, List.getElem?_eq_getElem (by omega)]; rfl
  obtain ⟨vs, hvs, hvlen, -⟩ := readBlues_of_loaded hl
  have happend := parities_eq_append (b := b) hvs (by omega) fun i x hx => by
    obtain ⟨hi, -⟩ := List.getElem?_eq_some_iff.1 hx
    rw [hb i (by omega), hx]
  rw [List.drop_eq_nil_of_le (by rw [List.length_map]; omega), List.append_nil] at happend
  exact ⟨vs, hvs, happend⟩

/-! ### DECODE is the codec's `decode` of BITBUF (40_bit_codec.md R121) -/

theorem bitsOperand_of_holds_within {b : List Bool} (h : HoldsBits s 0 b) {i n : Nat} (hin : i + n ≤ b.length) :
    bitsOperand s i n = some ((b.drop i).take n) := by
  have hlen : ((b.drop i).take n).length = n := by rw [List.length_take, List.length_drop]; omega
  refine (Memory.readRange_eq_some _ _ _ _).2 ⟨hlen, fun j hj => ?_⟩
  rw [List.getElem?_take_of_lt (by omega), List.getElem?_drop, ← h (i + j) (by omega), Nat.zero_add]

/-- DECODE of a bit sequence that BITBUF holds answers what `decode` of the sequence says. -/
theorem exec_decode_of_holds {b : List Bool} (hlen : s.bitLen.toNat = b.length) (hcap : b.length ≤ Config.bitCap)
    (hb : HoldsBits s 0 b) :
    exec .decode s = orRaise (codecDecode b) s fun m => commit (s.setMessage m) := by
  rw [← hlen] at hcap
  rcases Nat.lt_or_ge b.length 16 with h16 | h16
  · rw [codecDecode_malformed (.inl h16)]
    exact execDecode_cases.2 (.inr (.inl ⟨hcap, by omega, rfl⟩))
  · have hp : bitsOperand s 0 16 = some (b.take 16) := bitsOperand_of_holds_within hb h16
    by_cases hbad : bitsToU16 (b.take 16) % 8 ≠ 0 ∨ b.length - 16 < bitsToU16 (b.take 16)
    · rw [codecDecode_malformed (.inr hbad)]
      exact execDecode_cases.2 (.inr (.inr ⟨hcap, by omega, _, hp, .inl ⟨by rwa [hlen], rfl⟩⟩))
    · rw [codecDecode_sound h16 (by omega) (by omega)]
      exact execDecode_cases.2 (.inr (.inr ⟨hcap, by omega, _, hp,
        .inr ⟨by omega, by omega, _, bitsOperand_of_holds_within hb (by omega), rfl⟩⟩))

/-! ### The pipelines and BITBUF (42_pipeline.md R160) -/

/-- The embedding stage ends alike whatever STATUS holds: its commit overwrites it. -/
theorem embedBits_setStatus (b : List Bool) (c : StatusCode) (s : State) :
    embedBits b (s.setStatus c) = embedBits b s := rfl

section
variable (bits : Memory Bool) (n : Word)

theorem embedBits_of_other_bitbuf {b : List Bool} (h : embedBits b s = .next t) :
    embedBits b { s with bits := bits, bitLen := n } = .next { t with bits := bits, bitLen := n } := by
  obtain ⟨l, hl, rfl⟩ := embedBits_cases.1 h
  exact embedBits_cases.2 ⟨l, hl, rfl⟩

theorem encrypt_of_other_bitbuf (h : exec .encrypt s = .next t) :
    exec .encrypt { s with bits := bits, bitLen := n } = .next { t with bits := bits, bitLen := n } := by
  obtain ⟨hlong, rfl⟩ | ⟨hlen, hsmall, rfl⟩ | ⟨hlen, hfits, m, b, hm, hb, hembed⟩ := execEncrypt_cases.1 h
  · exact execEncrypt_cases.2 (.inl ⟨hlong, rfl⟩)
  · exact execEncrypt_cases.2 (.inr (.inl ⟨hlen, hsmall, rfl⟩))
  · exact execEncrypt_cases.2 (.inr (.inr ⟨hlen, hfits, m, b, hm, hb, embedBits_of_other_bitbuf bits n hembed⟩))

theorem decrypt_of_other_bitbuf (h : exec .decrypt s = .next t) :
    exec .decrypt { s with bits := bits, bitLen := n } = .next { t with bits := bits, bitLen := n } := by
  obtain ⟨vs, hvs, ⟨c, hc, rfl⟩ | ⟨m, hm, rfl⟩⟩ := execDecrypt_cases.1 h
  · exact execDecrypt_cases.2 ⟨vs, hvs, .inl ⟨c, hc, rfl⟩⟩
  · exact execDecrypt_cases.2 ⟨vs, hvs, .inr ⟨m, hm, rfl⟩⟩

/-- A pipeline ends alike whatever BITBUF and BIT_LEN hold. -/
theorem pipeline_of_other_bitbuf {i : Instr} (hi : i = .encrypt ∨ i = .decrypt) (h : exec i s = .next t) :
    exec i { s with bits := bits, bitLen := n } = .next { t with bits := bits, bitLen := n } := by
  rcases hi with rfl | rfl
  · exact encrypt_of_other_bitbuf bits n h
  · exact decrypt_of_other_bitbuf bits n h

/-- A pipeline faults alike: were there a next state with another BITBUF, there would be one with the given BITBUF. -/
theorem pipeline_fault_of_other_bitbuf {i : Instr} {f : Fault} (hi : i = .encrypt ∨ i = .decrypt)
    (h : exec i s = .fault f) : exec i { s with bits := bits, bitLen := n } = .fault f := by
  cases f
  refine exec_fault_of_no_next fun t ht => ?_
  have hback := pipeline_of_other_bitbuf s.bits s.bitLen hi ht
  cases h.symm.trans hback

end

theorem encrypt_ne_capacityExceeded (h : exec .encrypt s = .next t) : t.status ≠ .capacityExceeded := by
  obtain ⟨-, rfl⟩ | ⟨-, -, rfl⟩ | ⟨-, -, m, b, -, -, hembed⟩ := execEncrypt_cases.1 h
  · nofun
  · nofun
  · rw [embedBits_status hembed]; nofun

theorem decrypt_ne_capacityExceeded (h : exec .decrypt s = .next t) : t.status ≠ .capacityExceeded := by
  obtain ⟨vs, -, ⟨c, hc, rfl⟩ | ⟨m, -, rfl⟩⟩ := execDecrypt_cases.1 h
  · obtain ⟨rfl, -⟩ := codecDecode_eq_error.1 hc
    nofun
  · nofun

/-- A pipeline leaves BITBUF and BIT_LEN as they are, and BITBUF's size does not limit it. -/
theorem pipeline_keeps_bitbuf {i : Instr} (hi : i = .encrypt ∨ i = .decrypt) (h : exec i s = .next t) :
    t.bits = s.bits ∧ t.bitLen = s.bitLen ∧ t.status ≠ .capacityExceeded := by
  rcases hi with rfl | rfl
  · obtain ⟨hframe, -⟩ := encrypt_writes h
    exact ⟨by rw [hframe], by rw [hframe], encrypt_ne_capacityExceeded h⟩
  · obtain ⟨hframe, -⟩ := decrypt_writes h
    exact ⟨by rw [hframe], by rw [hframe], decrypt_ne_capacityExceeded h⟩

/-! ### The pipelines and the separate commands (42_pipeline.md R164) -/

/-- ENCODE fails only with MessageTooLong, and there ENCRYPT fails alike. -/
theorem encrypt_of_encode_failure (h : exec .encode s = .next t) (hf : t.status ≠ .ok) : exec .encrypt s = .next t := by
  obtain ⟨hlong, rfl⟩ | ⟨-, m, b, -, -, rfl⟩ := execEncode_cases.1 h
  · exact execEncrypt_cases.2 (.inl ⟨hlong, rfl⟩)
  · exact absurd rfl hf

/-- ENCODE and then EMBED: the sequence ENCODE writes is the one EMBED reads back, never too long for BITBUF. -/
theorem encrypt_of_encode_embed {u : State} (hencode : exec .encode s = .next t) (hok : t.status = .ok)
    (hembed : exec .embed t = .next u) : exec .encrypt s = .next { u with bits := s.bits, bitLen := s.bitLen } := by
  obtain ⟨-, rfl⟩ | ⟨hlen, m, b, hm, rfl, ht⟩ := execEncode_cases.1 hencode
  · cases hok
  · have hn := messageOperand_length hm
    have hcap := bitCap_lower
    have hbitLen : t.bitLen.toNat = 16 + 8 * s.msgLen.toNat := by
      rw [ht, setStatus_bitLen, setBitSequence_bitLen, encoded_length, hn, BitVec.toNat_ofNat]
      omega
    have hread : bitsOperand t 0 t.bitLen.toNat = some (u16ToBits (8 * m.length) ++ bytesToBits m) := by
      rw [hbitLen, ← hn, ← encoded_length, ht]
      exact bitsOperand_of_holds (holdsBits_setStatus.2 (holdsBits_setBitSequence _))
    have hsize : t.width.toNat * t.height.toNat = s.width.toNat * s.height.toNat := by rw [ht]; rfl
    obtain ⟨hover, -⟩ | ⟨-, hsmall, rfl⟩ | ⟨-, hfits, b, hb, hstage⟩ := execEmbed_cases.1 hembed
    · omega
    · exact execEncrypt_cases.2 (.inr (.inl ⟨hlen, by omega, by rw [ht]; rfl⟩))
    · cases hread.symm.trans hb
      refine execEncrypt_cases.2 (.inr (.inr ⟨hlen, by omega, m, _, hm, rfl, ?_⟩))
      rw [← embedBits_of_other_bitbuf s.bits s.bitLen hstage, ht]
      exact embedBits_setStatus _ .ok s

/-- EXTRACT and then DECODE: the parities EXTRACT writes are the sequence DECODE reads back. -/
theorem decrypt_of_extract_decode {u : State} (hcap : s.width.toNat * s.height.toNat ≤ Config.bitCap)
    (hextract : exec .extract s = .next t) (hdecode : exec .decode t = .next u) :
    exec .decrypt s = .next { u with bits := s.bits, bitLen := s.bitLen } := by
  obtain ⟨hover, -⟩ | ⟨-, vs, hvs, rfl⟩ := execExtract_cases.1 hextract
  · omega
  · have hlen : (vs.map parity).length = s.width.toNat * s.height.toNat := by
      rw [List.length_map, (readBlues_traversal hvs).1]
    have hupper := bitCap_upper
    rw [exec_decode_of_holds (b := vs.map parity)
      (by rw [setStatus_bitLen, setBitSequence_bitLen, BitVec.toNat_ofNat]; omega) (by omega)
      (holdsBits_setStatus.2 (holdsBits_setBitSequence _)), orRaise_eq_next] at hdecode
    obtain ⟨c, hc, rfl⟩ | ⟨m, hm, hcommit⟩ := hdecode
    · exact execDecrypt_cases.2 ⟨vs, hvs, .inl ⟨c, hc, rfl⟩⟩
    · obtain rfl := (commit_eq_next _ _).1 hcommit
      exact execDecrypt_cases.2 ⟨vs, hvs, .inr ⟨m, hm, rfl⟩⟩

end Sys2Proof.Machine
end

section
/-! SUPPORT. The statements about the pipelines (42_pipeline.md), settled. -/

namespace Sys2Proof.Machine

/-- Settles O23: ENCRYPT ends in the embedding stage on the encoded message, over pixels that are loaded. -/
theorem encryptCompletes : Obligations.EncryptCompletes := by
  intro s m hn hlen hfits hm hl
  rw [← encoded_length] at hl
  obtain ⟨t, hembed, hadjusted, hframe⟩ := embedBits_of_loaded (by rwa [encoded_length]) hl
  rw [encoded_length] at hframe
  exact ⟨t, exec_encrypt_of_holds hn hlen hfits hm hembed, hadjusted, hframe⟩

/-- Settles O24: the extracting stage reads the given parities, and `decode` of them is the bytes of `q`. -/
theorem decryptCompletes : Obligations.DecryptCompletes := by
  intro s p q r hsize hpar hp hq h8
  obtain ⟨vs, hvs, hbits⟩ := readBlues_of_parities hsize hpar
  have hbytes := bitsToBytes_length q h8
  have hlt := bitsToU16_lt hp
  refine ⟨_, execDecrypt_cases.2 ⟨vs, hvs, .inr ⟨bitsToBytes q, by rw [hbits, codecDecode_append hp hq h8], rfl⟩⟩, ?_,
    holdsMessage_setMessage _, hbytes, fun k hk => ?_, rfl⟩
  · rw [← hbytes]
    exact toNat_msgLen_setMessage (s := s) (by omega)
  · exact read_msg_setMessage (s := s) (by rwa [hbytes])

/-- Settles O28: an adjusted blue value has the parity of its bit, so the DECRYPT reads the encoded message first. -/
theorem pipelineRoundTrip : Obligations.PipelineRoundTrip := by
  intro s m hm hn hholds hfits hl
  have hlen : 8 * m.length < 65536 := by omega
  have hb : (u16ToBits (8 * m.length) ++ bytesToBits m).length ≤ s.width.toNat * s.height.toNat := by
    rwa [encoded_length]
  obtain ⟨t, hembed, hadjusted, -, -, -, hframe⟩ := embedBits_of_loaded hb fun i hi => hl i (by omega)
  refine ⟨t, exec_encrypt_of_holds hn hlen hfits hholds hembed, embedBits_status hembed,
    fun u himage hwidth hheight => ?_⟩
  have hW : u.width = s.width := by rw [hwidth, hframe]
  have hH : u.height = s.height := by rw [hheight, hframe]
  have hloaded := blueLoaded_of_onlyIncrementsBlue (embedBits_onlyIncrementsBlue hb hembed) hl
  rw [← himage, ← hW, ← hH] at hloaded
  obtain ⟨vs, hvs, -⟩ := readBlues_of_loaded hloaded
  have hparities := parities_eq_append hvs (by rwa [hW, hH]) fun i x hx => by
    obtain ⟨hi, -⟩ := List.getElem?_eq_some_iff.1 hx
    obtain ⟨v, hv⟩ := Option.isSome_iff_exists.1 (hl i (by omega))
    rw [himage, hH, hadjusted i x hx, hv, Option.map_some, Option.map_some, parity_subParity]
  refine ⟨_, execDecrypt_cases.2 ⟨vs, hvs, .inr ⟨m, ?_, rfl⟩⟩, rfl, toNat_msgLen_setMessage (s := u) hlen,
    holdsMessage_setMessage _⟩
  rw [hparities, codecDecode_encoded hlen]

/-- Settles O29: what a first command writes to BITBUF is what the second reads back, as the pipeline passes it on. -/
theorem pipelinesAgreeWithSeparateCommands : Obligations.PipelinesAgreeWithSeparateCommands :=
  ⟨fun _ _ => encrypt_of_encode_failure, fun _ _ _ => encrypt_of_encode_embed, fun _ _ _ => decrypt_of_extract_decode,
    fun _ hover => ⟨execExtract_cases.2 (.inl ⟨hover, rfl⟩), fun _ => decrypt_ne_capacityExceeded⟩,
    fun _ _ hlen hk hmsg hsmall => ⟨encode_fault_of_unwritten hlen hk hmsg,
      execEncrypt_cases.2 (.inr (.inl ⟨hlen, hsmall, rfl⟩))⟩⟩

/-- Settles O30: the conditions behind each next state of a pipeline do not mention BITBUF or BIT_LEN. -/
theorem pipelinesIgnoreBitbuf : Obligations.PipelinesIgnoreBitbuf := by
  refine fun i s b n hi => ⟨fun t h => ?_, fun f h => pipeline_fault_of_other_bitbuf b n hi h⟩
  obtain ⟨hbits, hbitLen, hstatus⟩ := pipeline_keeps_bitbuf hi h
  exact ⟨hbits, hbitLen, hstatus, pipeline_of_other_bitbuf b n hi h⟩

/-- Settles O59: both endings of DECRYPT log the reads of its extracting stage. -/
theorem decryptPortOrder : Obligations.DecryptPortOrder := by
  intro s t V h hV
  obtain ⟨vs, hvs, ⟨c, -, rfl⟩ | ⟨m, -, rfl⟩⟩ := execDecrypt_cases.1 h
  · rw [setStatus_portLog, logPort_portLog, readAccesses_traversal hvs hV]
  · rw [setStatus_portLog, setMessage_portLog, logPort_portLog, readAccesses_traversal hvs hV]

end Sys2Proof.Machine
end

section
/-! SUPPORT. The condition behind each code that a command ends with, once for all commands, and the words that no
command has, on which the statements about the error codes rest. -/

namespace Sys2Proof.Machine

variable {s t : State}

/-! ### Illegal words (60_exceptions.md R183) -/

/-- The format-N opcodes are below 8, and neither 0 nor SUB's. -/
theorem opcode_of_formatN {c : BitVec 4} {i : Instr} (h : formatN c = some i) :
    c.toNat ≠ 0 ∧ c.toNat ≠ 3 ∧ c.toNat < 8 := by
  obtain ⟨-, rfl⟩ | ⟨-, rfl⟩ | ⟨-, rfl⟩ | ⟨-, rfl⟩ | ⟨-, rfl⟩ | ⟨-, rfl⟩ := formatN_eq_some.1 h <;> decide

/-- A reserved opcode, or a reserved bit set beside a legal one, makes a word that is no command's. -/
theorem not_legal_of_reserved {w : Word}
    (h : w.toNat % 16 = 0 ∨ 8 ≤ w.toNat % 16 ∨ (w.toNat % 16 = 3 ∧ 2 ^ 13 ≤ w.toNat) ∨
      (w.toNat % 16 ≠ 3 ∧ 16 ≤ w.toNat)) (i : Instr) : decode w ≠ .ok i := by
  intro hd
  obtain ⟨hsub, hlt, -⟩ | ⟨hformat, hlt⟩ := decode_eq_ok.1 hd
  · have hopc : w.toNat % 16 = 3 := opcOf_eq_iff.1 hsub
    omega
  · have hopc := opcode_of_formatN hformat
    rw [opcOf_toNat] at hopc
    omega

/-! ### Why a command ends with a code (60_exceptions.md R182 to R187) -/

/-- The condition under which a command ends with a code, the tests that come before it included (R189). -/
def CauseOf (i : Instr) (s : State) : StatusCode → Prop
  | .ok => True
  | .capacityExceeded =>
    ((i = .decode ∨ i = .embed) ∧ Config.bitCap < s.bitLen.toNat) ∨
      (i = .extract ∧ Config.bitCap < s.width.toNat * s.height.toNat)
  | .messageTooLong => (i = .encode ∨ i = .encrypt) ∧ 65536 ≤ 8 * s.msgLen.toNat
  | .imageTooSmall =>
    (i = .embed ∧ s.bitLen.toNat ≤ Config.bitCap ∧ s.width.toNat * s.height.toNat < s.bitLen.toNat) ∨
      (i = .encrypt ∧ 8 * s.msgLen.toNat < 65536 ∧ s.width.toNat * s.height.toNat < 16 + 8 * s.msgLen.toNat)
  | .malformedData =>
    (i = .decode ∧ s.bitLen.toNat ≤ Config.bitCap ∧ (s.bitLen.toNat < 16 ∨
      ∃ p, bitsOperand s 0 16 = some p ∧ (bitsToU16 p % 8 ≠ 0 ∨ s.bitLen.toNat - 16 < bitsToU16 p))) ∨
      (i = .decrypt ∧ ∃ vs, readBlues s.image (traversal s.width.toNat s.height.toNat) = some vs ∧
        codecDecode (vs.map parity) = .error .malformedData)
  | .noMessageProvided => False
  | .ioFailure => False
  | .illegalCommand => False

/-- A command ends with a code only under the code's condition. -/
theorem exec_causeOf {i : Instr} (h : exec i s = .next t) : CauseOf i s t.status := by
  cases i with
  | encode =>
    obtain ⟨hlong, rfl⟩ | ⟨-, m, b, -, -, rfl⟩ := execEncode_cases.1 h
    · exact ⟨.inl rfl, hlong⟩
    · trivial
  | decode =>
    obtain ⟨hover, rfl⟩ | ⟨hcap, hshort, rfl⟩ | ⟨hcap, -, p, hp, ⟨hbad, rfl⟩ | ⟨-, -, q, -, rfl⟩⟩ :=
      execDecode_cases.1 h
    · exact .inl ⟨.inl rfl, hover⟩
    · exact .inl ⟨rfl, hcap, .inl hshort⟩
    · exact .inl ⟨rfl, hcap, .inr ⟨p, hp, hbad⟩⟩
    · trivial
  | sub v b =>
    obtain rfl := execSub_cases.1 h
    trivial
  | embed =>
    obtain ⟨hover, rfl⟩ | ⟨hcap, hsmall, rfl⟩ | ⟨-, -, b, -, hembed⟩ := execEmbed_cases.1 h
    · exact .inl ⟨.inr rfl, hover⟩
    · exact .inl ⟨rfl, hcap, hsmall⟩
    · rw [embedBits_status hembed]
      trivial
  | extract =>
    obtain ⟨hover, rfl⟩ | ⟨-, vs, -, rfl⟩ := execExtract_cases.1 h
    · exact .inr ⟨rfl, hover⟩
    · trivial
  | encrypt =>
    obtain ⟨hlong, rfl⟩ | ⟨hlen, hsmall, rfl⟩ | ⟨-, -, m, b, -, -, hembed⟩ := execEncrypt_cases.1 h
    · exact ⟨.inr rfl, hlong⟩
    · exact .inr ⟨rfl, hlen, hsmall⟩
    · rw [embedBits_status hembed]
      trivial
  | decrypt =>
    obtain ⟨vs, hvs, ⟨c, hc, rfl⟩ | ⟨m, -, rfl⟩⟩ := execDecrypt_cases.1 h
    · obtain ⟨rfl, -⟩ := codecDecode_eq_error.1 hc
      exact .inr ⟨rfl, vs, hvs, hc⟩
    · trivial

/-- The condition of a code that a command did end with. -/
theorem causeOf_of_exec {i : Instr} {c : StatusCode} (h : exec i s = .next t) (hc : t.status = c) : CauseOf i s c :=
  hc ▸ exec_causeOf h

end Sys2Proof.Machine
end

section
/-! SUPPORT. The statements about the error codes (60_exceptions.md), settled. -/

namespace Sys2Proof.Machine

/-- Settles O6: such a word decodes to no command, so its CMD write raises IllegalCommand. -/
theorem illegalWordsOnlySetStatus : Obligations.IllegalWordsOnlySetStatus := by
  intro s l w hs hw
  rw [step_of_script hs, runEvent_write_cmd, runCommand_of_not_legal (not_legal_of_reserved hw)]
  rfl

/-- Settles O33: each of the three commands tests the capacity first. -/
theorem capacityExceededExactlyWhen : Obligations.CapacityExceededExactlyWhen := by
  refine fun i s => ⟨?_, fun t => causeOf_of_exec⟩
  rintro (⟨rfl | rfl, hover⟩ | ⟨rfl, hover⟩)
  · exact execDecode_cases.2 (.inl ⟨hover, rfl⟩)
  · exact execEmbed_cases.2 (.inl ⟨hover, rfl⟩)
  · exact execExtract_cases.2 (.inl ⟨hover, rfl⟩)

/-- Settles O34: both commands test the message length first. -/
theorem messageTooLongExactlyWhen : Obligations.MessageTooLongExactlyWhen := by
  refine fun i s => ⟨?_, fun t => causeOf_of_exec⟩
  rintro ⟨rfl | rfl, hlong⟩
  · exact execEncode_cases.2 (.inl ⟨hlong, rfl⟩)
  · exact execEncrypt_cases.2 (.inl ⟨hlong, rfl⟩)

/-- Settles O36: where there is a length field, the one DECODE reads is the given one. -/
theorem decodeMalformedExactlyWhen : Obligations.DecodeMalformedExactlyWhen := by
  intro s p hcap hlen hholds
  have hread (h16 : 16 ≤ s.bitLen.toNat) : bitsOperand s 0 16 = some p := hlen ▸ bitsOperand_of_holds (hholds h16)
  refine ⟨fun hbad => ?_, fun t h hstatus => ?_⟩
  · rcases Nat.lt_or_ge s.bitLen.toNat 16 with hshort | h16
    · exact execDecode_cases.2 (.inr (.inl ⟨hcap, hshort, rfl⟩))
    · exact execDecode_cases.2
        (.inr (.inr ⟨hcap, h16, p, hread h16, .inl ⟨hbad.resolve_left (Nat.not_lt_of_le h16), rfl⟩⟩))
  · obtain ⟨-, -, hshort | ⟨q, hq, hbad⟩⟩ | ⟨hne, -⟩ := causeOf_of_exec h hstatus
    · exact .inl hshort
    · refine (Nat.lt_or_ge s.bitLen.toNat 16).imp_right fun h16 => ?_
      cases hq.symm.trans (hread h16)
      exact hbad
    · cases hne

/-- Settles O37: the bits DECRYPT reads are the given parities, and `decode` fails on them for the three causes. -/
theorem decryptMalformedExactlyWhen : Obligations.DecryptMalformedExactlyWhen := by
  intro s b hlen hparities
  rw [hlen] at hparities
  obtain ⟨vs, hvs, rfl⟩ := readBlues_of_parities hlen hparities
  refine ⟨fun hbad => ⟨_, execDecrypt_cases.2 ⟨vs, hvs, .inl ⟨_, codecDecode_malformed hbad, rfl⟩⟩, rfl⟩,
    fun t h hstatus => ?_⟩
  obtain ⟨hne, -⟩ | ⟨-, us, hus, herror⟩ := causeOf_of_exec h hstatus
  · cases hne
  · cases hus.symm.trans hvs
    exact (codecDecode_eq_error.1 herror).2

end Sys2Proof.Machine
end

section
/-! SUPPORT. The word of SUB by its number, on which the round trips of the command word rest. -/

namespace Sys2Proof.Machine

/-! ### The word of SUB (30_encoding.md R81, R84) -/

/-- The fields of a SUB word do not overlap, so its number is their sum. -/
theorem encode_sub_toNat (v : Byte) (b : Bool) :
    (encode (.sub v b)).toNat = b.toNat * 4096 + v.toNat * 16 + 3 := by
  have hv : v.toNat < 256 := v.isLt
  have hlow : (v.setWidth 32 <<< 4 ||| 3#32).toNat = v.toNat * 16 + 3 := by
    rw [BitVec.toNat_or, BitVec.toNat_shiftLeft, BitVec.toNat_setWidth, Nat.shiftLeft_eq,
      show v.toNat % 2 ^ 32 * 2 ^ 4 % 2 ^ 32 = 2 ^ 4 * v.toNat by omega]
    exact (Nat.two_pow_add_eq_or_of_lt (show 3 < 2 ^ 4 by decide) v.toNat).symm.trans (by omega)
  have hbit : ((BitVec.ofBool b).setWidth 32 <<< 12).toNat = 2 ^ 12 * b.toNat := by cases b <;> rfl
  rw [encode, BitVec.or_assoc, BitVec.toNat_or, hlow, hbit,
    ← Nat.two_pow_add_eq_or_of_lt (show v.toNat * 16 + 3 < 2 ^ 12 by omega)]
  omega

theorem decode_encode_sub (v : Byte) (b : Bool) : decode (encode (.sub v b)) = .ok (.sub v b) := by
  have hv : v.toNat < 256 := v.isLt
  have hb : b.toNat < 2 := b.toNat_lt
  have hval : BitVec.ofNat 8 ((b.toNat * 4096 + v.toNat * 16 + 3) / 16) = v :=
    BitVec.eq_of_toNat_eq (by rw [BitVec.toNat_ofNat]; omega)
  have hbit : ((b.toNat * 4096 + v.toNat * 16 + 3) / 4096 % 2 == 1) = b := by
    rw [show (b.toNat * 4096 + v.toNat * 16 + 3) / 4096 % 2 = b.toNat by omega]
    cases b <;> rfl
  refine decode_eq_ok.2 (.inl ⟨opcOf_eq_iff.2 ?_, ?_, ?_⟩)
  · rw [encode_sub_toNat]
    show _ = 3
    omega
  · rw [encode_sub_toNat]
    omega
  · rw [valOf_eq, bitOf_eq, encode_sub_toNat, hval, hbit]

/-- A word with the fixed fields of SUB is the word of the operands it holds. -/
theorem encode_sub_of_fields {w : Word} (hopc : opcOf w = 3#4) (hlt : w.toNat < 2 ^ 13) :
    encode (.sub (valOf w) (bitOf w)) = w := by
  have hopc : w.toNat % 16 = 3 := opcOf_eq_iff.1 hopc
  have hbit : (w.toNat / 4096 % 2 == 1).toNat = w.toNat / 4096 := by
    rcases (show w.toNat / 4096 = 0 ∨ w.toNat / 4096 = 1 by omega) with h | h <;> rw [h] <;> rfl
  refine BitVec.eq_of_toNat_eq ?_
  rw [encode_sub_toNat, valOf_eq, bitOf_eq, hbit, BitVec.toNat_ofNat]
  omega

theorem encode_of_formatN_word {w : Word} {i : Instr} (h : formatN (opcOf w) = some i ∧ w.toNat < 2 ^ 4) :
    encode i = w := by
  obtain ⟨rfl, rfl⟩ | ⟨rfl, rfl⟩ | ⟨rfl, rfl⟩ | ⟨rfl, rfl⟩ | ⟨rfl, rfl⟩ | ⟨rfl, rfl⟩ := formatN_word.1 h <;> rfl

end Sys2Proof.Machine
end

section
/-! SUPPORT. The statements about the round trips of the command word (30_encoding.md), settled. -/

namespace Sys2Proof.Machine

/-- Settles O1: SUB by the number of its word, each format-N command by its one word. -/
theorem decodeOfEncodeIsTheCommand : Obligations.DecodeOfEncodeIsTheCommand := by
  intro i
  cases i with
  | sub v b => exact decode_encode_sub v b
  | _ => rfl

/-- Settles O2: a legal word is one of format N, or SUB's with the operands read from it. -/
theorem encodeOfDecodeIsTheWord : Obligations.EncodeOfDecodeIsTheWord := by
  intro w i h
  obtain ⟨hopc, hlt, rfl⟩ | hword := decode_eq_ok.1 h
  · exact encode_sub_of_fields hopc hlt
  · exact encode_of_formatN_word hword

/-- Settles O4: `decode_cmd` computed on each of the five words. -/
theorem writtenOutWordsDecode : Obligations.WrittenOutWordsDecode := ⟨rfl, rfl, rfl, rfl, rfl⟩

end Sys2Proof.Machine
end

section
/-! SUPPORT. What keeps the invariant of the block and of its pixel memory: the staged pixel writes, each command, and
each act of the host. -/

namespace Sys2Proof.Machine

variable {s t : State}

/-! ### Pixel memory (10_state.md R35) -/

theorem pixWrite_sound {p : PixelMemory} {x y : Nat} {c : Channel} (h : p.sound) (hg : p.inGrid x y c = true)
    (v : Byte) : (pixWrite p x y c v).sound := by
  obtain ⟨hwf, hkeys⟩ := h
  refine ⟨Memory.write_wf hwf _ _, fun k u hk => ?_⟩
  rw [pixWrite_inGrid]
  obtain hold | hnew := Memory.mem_write hk
  · exact hkeys k u hold
  · cases hnew
    exact ⟨x, y, c, hg, rfl⟩

/-- Staged writes of locations the image has keep pixel memory sound. -/
theorem commitPort_sound (l : List PortAccess) : ∀ p : PixelMemory, p.sound →
    (∀ x y c v, .write x y c v ∈ l → p.inGrid x y c = true) → (commitPort p l).sound := by
  induction l with
  | nil => intro p h _; exact h
  | cons a l ih =>
    intro p h hgrid
    have hrest : ∀ x y c v, .write x y c v ∈ l → p.inGrid x y c = true :=
      fun x y c v hmem => hgrid x y c v (List.mem_cons_of_mem a hmem)
    cases a with
    | read x y c v => exact ih p h hrest
    | write x y c v => exact ih _ (pixWrite_sound h (hgrid x y c v List.mem_cons_self) v) hrest

/-- An embed stages writes only of locations it has read, so the image has them. -/
theorem inGrid_of_staged {p : PixelMemory} {H : Nat} (b : List Bool) : ∀ (i : Nat) (l : List PortAccess),
    embedAccesses p H i b = some l → ∀ x y c v, .write x y c v ∈ l → p.inGrid x y c = true := by
  induction b with
  | nil =>
    intro i l h x y c v hmem
    cases h
    cases hmem
  | cons a b ih =>
    intro i l h x y c v hmem
    obtain ⟨w, l', hread, hl', rfl⟩ := embedAccesses_cons.1 h
    obtain hmem | hmem := List.mem_append.1 ((List.mem_cons.1 hmem).resolve_left nofun)
    · split at hmem
      · cases hmem
      · cases List.mem_singleton.1 hmem
        exact inGrid_of_pixRead hread
    · exact ih (i + 1) l' hl' x y c v hmem

theorem emptyImage_sound (w h : Dim) : ({ width := w, height := h, cells := [] } : PixelMemory).sound :=
  ⟨List.Pairwise.nil, nofun⟩

theorem exec_image_sound {i : Instr} (h : exec i s = .next t) (hs : s.image.sound) : t.image.sound := by
  obtain himage | ⟨b, -, hembed⟩ := exec_image h
  · rwa [himage]
  · obtain ⟨l, hl, rfl⟩ := embedBits_cases.1 hembed
    exact commitPort_sound l s.image hs (inGrid_of_staged b 0 l hl)

/-! ### The buffers (10_state.md R27, R29) -/

theorem setMessage_msg_within {m : List Byte} (hm : m.length ≤ 8191) (hs : Memory.within s.msg Config.msgCap) :
    Memory.within (s.setMessage m).msg Config.msgCap :=
  Memory.writeFrom_within m hs (by rwa [Nat.zero_add])

theorem setBitSequence_bits_within {b : List Bool} (hb : b.length ≤ Config.bitCap)
    (hs : Memory.within s.bits Config.bitCap) : Memory.within (s.setBitSequence b).bits Config.bitCap :=
  Memory.writeFrom_within b hs (by rwa [Nat.zero_add])

/-- A 16-bit length field counts no more bytes than MSG has. -/
theorem bitsToBytes_length_le {p q : List Bool} (hp : p.length = 16) (hq : q.length = bitsToU16 p)
    (h8 : q.length % 8 = 0) : (bitsToBytes q).length ≤ 8191 := by
  have hlt := bitsToU16_lt hp
  rw [bitsToBytes_length q h8]
  omega

/-- Only DECODE and DECRYPT write MSG, and no message they decode is longer than it. -/
theorem exec_msg_within {i : Instr} (h : exec i s = .next t) (hs : Memory.within s.msg Config.msgCap) :
    Memory.within t.msg Config.msgCap := by
  cases i with
  | encode => rw [(encode_writes h).1]; exact hs
  | decode =>
    obtain ⟨-, rfl⟩ | ⟨-, -, rfl⟩ | ⟨-, -, p, hp, ⟨-, rfl⟩ | ⟨h8, -, q, hq, rfl⟩⟩ := execDecode_cases.1 h
    · exact hs
    · exact hs
    · exact hs
    · rw [← bitsOperand_length hq] at h8
      exact setMessage_msg_within (s := s) (bitsToBytes_length_le (bitsOperand_length hp) (bitsOperand_length hq) h8) hs
  | sub v b => rw [sub_writes h]; exact hs
  | embed => rw [(embed_writes h).1]; exact hs
  | extract => rw [(extract_writes h).1]; exact hs
  | encrypt => rw [(encrypt_writes h).1]; exact hs
  | decrypt =>
    obtain ⟨vs, -, ⟨c, -, rfl⟩ | ⟨m, hm, rfl⟩⟩ := execDecrypt_cases.1 h
    · exact hs
    · obtain ⟨-, -, hshort⟩ := codecRoundTrip
      exact setMessage_msg_within (s := s) (hshort _ m hm) hs

/-- Only ENCODE and EXTRACT write BITBUF, and no sequence they write is longer than it. -/
theorem exec_bits_within {i : Instr} (h : exec i s = .next t) (hs : Memory.within s.bits Config.bitCap) :
    Memory.within t.bits Config.bitCap := by
  cases i with
  | encode =>
    obtain ⟨-, rfl⟩ | ⟨hlen, m, b, hm, hb, rfl⟩ := execEncode_cases.1 h
    · exact hs
    · have hcap := bitCap_lower
      refine setBitSequence_bits_within (s := s) ?_ hs
      rw [hb, encoded_length, messageOperand_length hm]
      omega
  | decode => rw [(decode_writes h).1]; exact hs
  | sub v b => rw [sub_writes h]; exact hs
  | embed => rw [(embed_writes h).1]; exact hs
  | extract =>
    obtain ⟨-, rfl⟩ | ⟨hcap, vs, hvs, rfl⟩ := execExtract_cases.1 h
    · exact hs
    · exact setBitSequence_bits_within (s := s.logPort _)
        (by rwa [List.length_map, (readBlues_traversal hvs).1]) hs
  | encrypt => rw [(encrypt_writes h).1]; exact hs
  | decrypt => rw [(decrypt_writes h).1]; exact hs

/-! ### STATUS (60_exceptions.md R180, R187) -/

/-- No command ends with a host-level code. -/
theorem exec_blockWrites {i : Instr} (h : exec i s = .next t) : blockWrites t.status = true := by
  have hcause := exec_causeOf h
  cases hc : t.status with
  | noMessageProvided => rw [hc] at hcause; exact hcause.elim
  | ioFailure => rw [hc] at hcause; exact hcause.elim
  | _ => rfl

/-! ### The invariant -/

theorem inv_reset : State.reset.Inv where
  msg := Memory.within_nil _
  bits := Memory.within_nil _
  image := emptyImage_sound _ _
  status := rfl

theorem exec_inv {i : Instr} (hs : s.Inv) (h : exec i s = .next t) : t.Inv where
  msg := exec_msg_within h hs.msg
  bits := exec_bits_within h hs.bits
  image := exec_image_sound h hs.image
  status := exec_blockWrites h

/-- A store of the host goes to a location that its buffer has. -/
theorem writeData_inv (o : Nat) (v : Word) (hs : s.Inv) : (writeData o v s).Inv := by
  obtain ⟨k, hk, hw⟩ | ⟨k, hk, hw⟩ | ⟨n, b, w, g, hw⟩ := writeData_cases o v s
  · rw [hw]
    exact { hs with msg := Memory.write_within hs.msg hk _ }
  · have hfits : 8 * k + (byteBits (v.setWidth 8)).length ≤ Config.bitCap := by
      rw [byteBits_length, bitCap_eq]
      omega
    rw [hw]
    exact { hs with bits := Memory.writeFrom_within _ hs.bits hfits }
  · rw [hw]
    exact { hs with }

theorem runEvent_inv {e : HostEvent} (hs : s.Inv) (h : runEvent e s = .next t) : t.Inv := by
  obtain ⟨n, w, i, -, -, hx⟩ | ⟨n, w, -, rfl⟩ | ⟨o, n, v, -, -, rfl⟩ | ⟨o, n, v, -, rfl⟩ | ⟨-, rfl⟩ |
    ⟨w, g, -, rfl⟩ | ⟨x, y, c, v, -, hg, rfl⟩ := runEvent_cases h
  · exact exec_inv hs hx
  · exact { hs with status := rfl }
  · exact writeData_inv _ _ hs
  · exact { hs with }
  · exact { inv_reset with image := hs.image }
  · exact { hs with image := emptyImage_sound w g }
  · exact { hs with image := pixWrite_sound hs.image hg v }

theorem step_inv (hs : s.Inv) (h : step s = .next t) : t.Inv := by
  obtain ⟨-, rfl⟩ | ⟨e, l, -, hrun⟩ := step_cases h
  · exact hs
  · exact runEvent_inv (s := s.setScript l) { hs with } hrun

end Sys2Proof.Machine
end

section
/-! SUPPORT. The statements about the invariant of the block and of its pixel memory, settled. -/

namespace Sys2Proof.Machine

/-- Settles O55: the invariant of a step, by the cases of the host's act and of the command it starts. -/
theorem everyStepKeepsTheInvariant : Obligations.EveryStepKeepsTheInvariant := fun _ _ => step_inv

/-- Settles O54: both buffers and pixel memory are empty, and STATUS is OK. -/
theorem invariantAtReset : Obligations.InvariantAtReset := inv_reset

end Sys2Proof.Machine
end

section
/-! SUPPORT. Laws of EMBED and EXTRACT over a loaded image: where they end, and how what they leave reads as the
result of the mapper's functions, on which the statements about completion and refinement rest. -/

namespace Sys2Proof.Machine

variable {s t : State}

/-- BIT_LEN after a bit sequence is written: every sequence that BITBUF holds is short enough for it. -/
theorem toNat_bitLen_setBitSequence {b : List Bool} (h : b.length ≤ Config.bitCap) :
    (s.setBitSequence b).bitLen.toNat = b.length := by
  have hcap := bitCap_upper
  rw [setBitSequence_bitLen, BitVec.toNat_ofNat, Nat.mod_eq_of_lt (by omega)]

/-! ### EMBED (41_pixel_mapper.md R134, R141) -/

/-- EMBED of a bit sequence that BITBUF holds and the image has room for ends in the embedding stage. -/
theorem exec_embed_of_holds {b : List Bool} (hn : b.length = s.bitLen.toNat) (hcap : b.length ≤ Config.bitCap)
    (hfits : b.length ≤ s.width.toNat * s.height.toNat) (hb : HoldsBits s 0 b) (h : embedBits b s = .next t) :
    exec .embed s = .next t := by
  have hread : bitsOperand s 0 s.bitLen.toNat = some b := hn ▸ bitsOperand_of_holds hb
  rw [hn] at hcap hfits
  exact execEmbed_cases.2 (.inr (.inr ⟨hcap, hfits, b, hread, h⟩))

theorem embedImg_eq_error {b : List Bool} {P : PixelMap} {W H : Nat} {c : StatusCode} :
    embedImg b P W H = .error c ↔ c = .imageTooSmall ∧ W * H < b.length := by
  rw [embedImg]
  split
  · next h => exact ⟨fun he => ⟨(Except.error.inj he).symm, (imageTooSmall_iff _ _).1 h⟩, fun ⟨hc, _⟩ => hc ▸ rfl⟩
  · next h => exact ⟨nofun, fun ⟨_, hlt⟩ => absurd ((imageTooSmall_iff _ _).2 hlt) h⟩

/-- Pixel memory `q` after an embed reads as the map of `embed_img`, when `p` before it reads as the map `P`. -/
theorem pixRead_eq_embedImg {p q : PixelMemory} {P P' : PixelMap} {b : List Bool} {W H : Nat}
    (hP : ∀ x y c v, pixRead p x y c = some v → P x y c = v) (hP' : embedImg b P W H = .ok P')
    (hadjusted : ∀ i x, b[i]? = some x → pixRead q (pixelOf i H).1 (pixelOf i H).2 .blue =
      (pixRead p (pixelOf i H).1 (pixelOf i H).2 .blue).map (subParity · x))
    (hframe : ∀ x y c, (c = .blue → ∀ i, i < b.length → pixelOf i H ≠ (x, y)) → pixRead q x y c = pixRead p x y c)
    (x y : Nat) (c : Channel) : pixRead q x y c = (pixRead p x y c).map fun _ => P' x y c := by
  by_cases hpix : c = .blue ∧ ∃ i, i < b.length ∧ pixelOf i H = (x, y)
  · obtain ⟨rfl, i, hi, hxy⟩ := hpix
    have hbit : b[i]? = some b[i] := List.getElem?_eq_getElem hi
    have hread := hadjusted i _ hbit
    have hmap := embedImg_adjusted hP' hbit
    rw [hxy] at hread hmap
    rw [hread, hmap]
    exact Option.map_congr fun v hv => by rw [hP x y .blue v hv]
  · have hfree : c = .blue → ∀ i, i < b.length → pixelOf i H ≠ (x, y) := fun hc i hi hxy => hpix ⟨hc, i, hi, hxy⟩
    rw [hframe x y c hfree, embedImg_frame hP' hfree]
    cases hread : pixRead p x y c with
    | none => rfl
    | some v => rw [Option.map_some, hP x y c v hread]

/-! ### EXTRACT (41_pixel_mapper.md R135, R142) -/

/-- EXTRACT over a loaded grid writes the parities of its blue values to BITBUF. -/
theorem exec_extract_of_loaded (hcap : s.width.toNat * s.height.toNat ≤ Config.bitCap)
    (hl : BlueLoaded s.image s.height.toNat (s.width.toNat * s.height.toNat)) :
    ∃ (vs : List Byte) (l : List PortAccess),
      exec .extract s = .next (((s.logPort l).setBitSequence (vs.map parity)).setStatus .ok) ∧
      vs.length = s.width.toNat * s.height.toNat ∧
      ∀ i, i < s.width.toNat * s.height.toNat →
        pixRead s.image (pixelOf i s.height.toNat).1 (pixelOf i s.height.toNat).2 .blue = vs[i]? := by
  obtain ⟨vs, hvs, hlen, hread⟩ := readBlues_of_loaded hl
  exact ⟨vs, _, execExtract_cases.2 (.inr ⟨hcap, vs, hvs, rfl⟩), hlen, hread⟩

/-- `extract_img` of a map that agrees with the blue values of the grid is their parities. -/
theorem extractImg_eq_map_parity {p : PixelMemory} {P : PixelMap} {vs : List Byte} {W H : Nat}
    (hP : ∀ x y c v, pixRead p x y c = some v → P x y c = v) (hlen : vs.length = W * H)
    (hread : ∀ i, i < W * H → pixRead p (pixelOf i H).1 (pixelOf i H).2 .blue = vs[i]?) :
    extractImg P W H = vs.map parity := by
  refine List.ext_getElem? fun i => ?_
  rcases Nat.lt_or_ge i (W * H) with hi | hi
  · have hv : vs[i]? = some vs[i] := List.getElem?_eq_getElem (by omega)
    rw [extractImg_getElem? hi, List.getElem?_map, hv, hP _ _ _ _ ((hread i hi).trans hv)]
    rfl
  · rw [List.getElem?_eq_none (by rwa [extractImg_length]), List.getElem?_eq_none (by rwa [List.length_map, hlen])]

end Sys2Proof.Machine
end

section
/-! SUPPORT. The statements that the commands complete and that they refine the pure functions, settled. -/

namespace Sys2Proof.Machine

/-- Settles O19: ENCODE writes the encoded sequence, which every BITBUF can hold. -/
theorem encodeCompletes : Obligations.EncodeCompletes := by
  intro s m hn hlen hm
  have hcap := bitCap_lower
  have hx := exec_encode_of_holds hn hlen hm
  have hb := encoded_length m
  generalize u16ToBits (8 * m.length) ++ bytesToBits m = b at hx hb ⊢
  refine ⟨_, hx, rfl, ?_, holdsBits_setStatus.2 (holdsBits_setBitSequence b), fun i hi => ?_, rfl⟩
  · rw [setStatus_bitLen, toNat_bitLen_setBitSequence (by omega), hb]
  · exact read_bits_setBitSequence (s := s) (by rwa [hb])

/-- Settles O20: DECODE reads the two given sequences and passes its tests. -/
theorem decodeCompletes : Obligations.DecodeCompletes := by
  intro s p q hcap hp hholdsP hq h8 hfits hholdsQ
  have hbytes := bitsToBytes_length q h8
  have hlt := bitsToU16_lt hp
  have hreadP : bitsOperand s 0 16 = some p := hp ▸ bitsOperand_of_holds hholdsP
  have hreadQ : bitsOperand s 16 (bitsToU16 p) = some q := hq ▸ bitsOperand_of_holds hholdsQ
  refine ⟨_, execDecode_cases.2 (.inr (.inr ⟨hcap, by omega, p, hreadP,
    .inr ⟨by omega, by omega, q, hreadQ, rfl⟩⟩)), rfl, ?_, holdsMessage_setMessage _, hbytes, fun k hk => ?_, rfl⟩
  · rw [← hbytes]
    exact toNat_msgLen_setMessage (s := s) (by omega)
  · exact read_msg_setMessage (s := s) (by rwa [hbytes])

/-- Settles O21: EMBED ends in the embedding stage on the bits BITBUF holds, over pixels that are loaded. -/
theorem embedCompletes : Obligations.EmbedCompletes := by
  intro s b hn hcap hfits hb hl
  obtain ⟨t, hembed, heffect⟩ := embedBits_of_loaded hfits hl
  exact ⟨t, exec_embed_of_holds hn hcap hfits hb hembed, heffect⟩

/-- Settles O22: the parities that the extracting stage reads, by their place in BITBUF. -/
theorem extractCompletes : Obligations.ExtractCompletes := by
  intro s hcap hl
  obtain ⟨vs, l, hx, hlen, hread⟩ := exec_extract_of_loaded hcap hl
  have hbits : (vs.map parity).length = s.width.toNat * s.height.toNat := by rw [List.length_map, hlen]
  refine ⟨_, hx, ?_, fun i hi => ?_, fun i hi => ?_, rfl⟩
  · rw [setStatus_bitLen, toNat_bitLen_setBitSequence (by rwa [hbits]), hbits]
  · have hwritten := holdsBits_setBitSequence (s := s.logPort l) (vs.map parity) i (by rwa [hbits])
    rw [hread i hi, ← List.getElem?_map, ← hwritten, Nat.zero_add, setStatus_bits]
  · exact read_bits_setBitSequence (s := s.logPort l) (by rwa [hbits])

/-- Settles O25: DECODE answers what `decode` says, and a decoded message is short enough for MSG_LEN. -/
theorem decodeRefinesTheCodec : Obligations.DecodeRefinesTheCodec := by
  intro s b hn hcap hb
  have hx := exec_decode_of_holds hn.symm hcap hb
  refine ⟨fun c hc => ?_, fun m hm => ?_⟩
  · rw [hx, hc]
    rfl
  · obtain ⟨-, -, hshort⟩ := codecRoundTrip
    have hlen := hshort b m hm
    rw [hm] at hx
    exact ⟨_, hx, rfl, toNat_msgLen_setMessage (s := s) (by omega), holdsMessage_setMessage _⟩

/-- Settles O26: `embed_img` fails where EMBED finds the image too small, and else adjusts the same values. -/
theorem embedRefinesEmbedImg : Obligations.EmbedRefinesEmbedImg := by
  intro s P b hn hcap hb hP
  refine ⟨fun c hc => ?_, fun P' hP' hl => ?_⟩
  · obtain ⟨rfl, hsmall⟩ := embedImg_eq_error.1 hc
    rw [hn] at hcap hsmall
    exact execEmbed_cases.2 (.inr (.inl ⟨hcap, hsmall, rfl⟩))
  · obtain ⟨hfits, -⟩ := embedImg_eq_ok.1 hP'
    obtain ⟨t, hembed, hadjusted, hframe, -⟩ := embedBits_of_loaded hfits hl
    exact ⟨t, exec_embed_of_holds hn hcap hfits hb hembed, embedBits_status hembed,
      pixRead_eq_embedImg hP hP' hadjusted hframe⟩

/-- Settles O27: `extract_img` is the parities that EXTRACT writes. -/
theorem extractRefinesExtractImg : Obligations.ExtractRefinesExtractImg := by
  intro s P hcap hl hP
  obtain ⟨vs, l, hx, hlen, hread⟩ := exec_extract_of_loaded hcap hl
  rw [extractImg_eq_map_parity hP hlen hread]
  exact ⟨_, hx, rfl, holdsBits_setStatus.2 (holdsBits_setBitSequence _)⟩

end Sys2Proof.Machine
end

section
/-! SUPPORT. Laws of the host port's registers and reserved space, of what a step can do to STATUS, and of the commands
that the condition of a code names, on which the remaining statements rest. -/

namespace Sys2Proof.Machine

variable {s t : State}

/-! ### Which command raises a code (60_exceptions.md R180) -/

/-- The condition of a code names the commands that the table of R180 gives it. -/
theorem raisedBy_of_causeOf {i : Instr} {c : StatusCode} (h : CauseOf i s c) :
    c = .ok ∨ (c = .messageTooLong ∧ (i = .encode ∨ i = .encrypt)) ∨
      (c = .imageTooSmall ∧ (i = .embed ∨ i = .encrypt)) ∨
      (c = .malformedData ∧ (i = .decode ∨ i = .decrypt)) ∨
      (c = .capacityExceeded ∧ (i = .decode ∨ i = .embed ∨ i = .extract)) := by
  cases c with
  | ok => exact .inl rfl
  | messageTooLong => exact .inr (.inl ⟨rfl, h.1⟩)
  | imageTooSmall => exact .inr (.inr (.inl ⟨rfl, h.imp And.left And.left⟩))
  | malformedData => exact .inr (.inr (.inr (.inl ⟨rfl, h.imp And.left And.left⟩)))
  | capacityExceeded => exact .inr (.inr (.inr (.inr ⟨rfl, or_assoc.1 (h.imp And.left And.left)⟩)))
  | noMessageProvided => exact h.elim
  | ioFailure => exact h.elim
  | illegalCommand => exact h.elim

/-- A failed command word changes STATUS and, if it is DECRYPT's, what the port observer has seen (R181, R183). -/
theorem runCommand_failure {w : Word} (h : runCommand w s = .next t) (hf : t.status ≠ .ok) :
    t = { s with status := t.status, portLog := t.portLog } ∧
      (decode w ≠ .ok .decrypt → t.portLog = s.portLog) := by
  cases hd : decode w with
  | ok i =>
    rw [runCommand_of_decode_ok hd] at h
    obtain ⟨hframe, hlog⟩ := exec_failure h hf
    exact ⟨hframe, fun hne => hlog fun hi => hne (congrArg Except.ok hi)⟩
  | error e =>
    rw [runCommand_of_decode_error hd] at h
    cases h
    exact ⟨rfl, fun _ => rfl⟩

/-! ### Reserved offsets (10_state.md R34, 20_memory.md R63) -/

/-- A reserved offset of the register window, or a span of reserved host space. -/
def ReservedAccess (o n : Nat) : Prop :=
  (o < 0x1000 ∧ 0x20 ≤ o ∧ o % 4 = 0 ∧ n = 4) ∨ (regionOf o = .reserved ∧ reservedSpan o n = true)

theorem reservedSpan_iff {o n : Nat} : reservedSpan o n = true ↔
    1 ≤ n ∧ (o + n ≤ bitWindow ∨ bitWindow ≤ o ∧ o + n ≤ 2 ^ 32) := by
  simp only [reservedSpan, Bool.and_eq_true, Bool.or_eq_true, decide_eq_true_eq]

theorem supported_of_reserved {o n : Nat} (h : ReservedAccess o n) : supported o n = true := by
  obtain ⟨hreg, -, h4, hn⟩ | ⟨hres, hspan⟩ := h
  · exact (supported_register hreg).2 ⟨hn, h4⟩
  · rw [supported, hres]
    exact hspan

theorem readData_of_reserved {o n : Nat} (h : ReservedAccess o n) (s : State) : readData s o = 0#32 := by
  obtain ⟨hreg, hlo, -⟩ | ⟨hres, -⟩ := h
  · simp only [readData, regionOf_register hreg, regAt_eq_none hlo]
  · simp only [readData, hres]

theorem writeData_of_reserved {o n : Nat} (h : ReservedAccess o n) (v : Word) (s : State) : writeData o v s = s := by
  obtain ⟨hreg, hlo, -⟩ | ⟨hres, -⟩ := h
  · simp only [writeData, regionOf_register hreg, regAt_eq_none hlo]
  · simp only [writeData, hres]

theorem ne_cmd_of_reserved {o : Word} {n : Nat} (h : ReservedAccess o.toNat n) : o ≠ 0#32 := by
  rintro rfl
  obtain ⟨-, hlo, -⟩ | ⟨hres, -⟩ := h
  · exact absurd hlo (by decide)
  · cases hres

/-! ### Registers (10_state.md section 3) -/

/-- A write and then a read of a register other than CMD. -/
theorem runScript_wr_rd {r : Reg} (h : r ≠ .cmd) (v : Word) (s : State) :
    runScript s [wr r v, rd r] = .next ((writeReg v s r).reply (readReg (writeReg v s r) r)) := by
  rw [runScript_cons (runEvent_wr h v s), runScript_singleton, runEvent_rd]

/-- WIDTH and HEIGHT keep the low 16 bits (R30, R31). -/
theorem setWidth_dim (v : Word) : (v.setWidth 16).setWidth 32 = v &&& 0xFFFF#32 := by
  refine BitVec.eq_of_toNat_eq ?_
  rw [BitVec.toNat_and, BitVec.toNat_setWidth, BitVec.toNat_setWidth]
  show _ = v.toNat &&& (2 ^ 16 - 1)
  rw [Nat.and_two_pow_sub_one_eq_mod]
  omega

/-! ### STATUS and SUB_RESULT (10_state.md R20, R25, R32) -/

/-- A store that starts no command writes neither of the block's own registers. -/
theorem writeData_ownRegisters (o : Nat) (v : Word) (s : State) :
    (writeData o v s).status = s.status ∧ (writeData o v s).subResult = s.subResult := by
  obtain ⟨k, -, hw⟩ | ⟨k, -, hw⟩ | ⟨n, b, w, g, hw⟩ := writeData_cases o v s <;> rw [hw] <;> exact ⟨rfl, rfl⟩

theorem runEvent_ownRegisters {e : HostEvent} (hreset : e ≠ .reset) (hcmd : ∀ n w, e ≠ .write 0#32 n w)
    (h : runEvent e s = .next t) : t.status = s.status ∧ t.subResult = s.subResult := by
  obtain ⟨n, w, i, he, -, -⟩ | ⟨n, w, he, -⟩ | ⟨o, n, v, -, -, rfl⟩ | ⟨o, n, v, -, rfl⟩ | ⟨he, -⟩ |
    ⟨w, g, -, rfl⟩ | ⟨x, y, c, v, -, -, rfl⟩ := runEvent_cases h
  · exact absurd he (hcmd n w)
  · exact absurd he (hcmd n w)
  · exact writeData_ownRegisters _ _ _
  · exact ⟨rfl, rfl⟩
  · exact absurd he hreset
  · exact ⟨rfl, rfl⟩
  · exact ⟨rfl, rfl⟩

end Sys2Proof.Machine
end

section
/-! SUPPORT. The remaining statements about the error codes, the host port and STATUS, settled. -/

namespace Sys2Proof.Machine

/-- Settles O35: both commands find the image too small after their first test, and the code has no other condition. -/
theorem imageTooSmallExactlyWhen : Obligations.ImageTooSmallExactlyWhen := by
  refine fun i s => ⟨?_, fun t => causeOf_of_exec⟩
  rintro (⟨rfl, hcap, hsmall⟩ | ⟨rfl, hlen, hsmall⟩)
  · exact execEmbed_cases.2 (.inr (.inl ⟨hcap, hsmall, rfl⟩))
  · exact execEncrypt_cases.2 (.inr (.inl ⟨hlen, hsmall, rfl⟩))

/-- Settles O40: a legal word by what its failed command changes, an illegal one by `raise IllegalCommand()`. -/
theorem failureChangesOnlyStatus : Obligations.FailureChangesOnlyStatus := fun _ _ _ => runCommand_failure

/-- Settles O41: the numbers computed, and the commands that each code's condition names. -/
theorem statusCodesAndWhoRaisesThem : Obligations.StatusCodesAndWhoRaisesThem :=
  ⟨rfl, fun _ _ _ h => raisedBy_of_causeOf (exec_causeOf h), fun _ s h => runCommand_of_not_legal h s⟩

/-- Settles O46: such an access is supported, reads 0 and stores nothing. -/
theorem reservedOffsetsReadZeroAndIgnoreWrites : Obligations.ReservedOffsetsReadZeroAndIgnoreWrites := by
  intro s o n v h
  rw [bitCap_div] at h
  have hwindow : bitWindow = 0x10000000 := rfl
  have hres : ReservedAccess o.toNat n := by
    obtain ⟨hlo, hhi, h4, hn⟩ | ⟨hn, hlo, hhi⟩ | ⟨hn, hlo, hhi⟩ := h
    · exact .inl ⟨hhi, hlo, h4, hn⟩
    · exact .inr ⟨regionOf_reserved (.inl ⟨hlo, by omega⟩), reservedSpan_iff.2 ⟨hn, .inl hhi⟩⟩
    · exact .inr ⟨regionOf_reserved (.inr (by omega)), reservedSpan_iff.2 ⟨hn, .inr ⟨by omega, hhi⟩⟩⟩
  have hsup := supported_of_reserved hres
  rw [runEvent_read_of_supported hsup, readData_of_reserved hres,
    runEvent_write_of_supported hsup (ne_cmd_of_reserved hres), writeData_of_reserved hres]
  exact ⟨rfl, rfl⟩

/-- Settles O57: by the cases of the host's act; only a CMD write and reset write STATUS and SUB_RESULT. -/
theorem onlyCommandsWriteStatus : Obligations.OnlyCommandsWriteStatus := by
  intro s t h hreset hcmd
  obtain ⟨-, rfl⟩ | ⟨e, l, hs, hrun⟩ := step_cases h
  · exact ⟨rfl, rfl⟩
  · rw [hs] at hreset hcmd
    exact runEvent_ownRegisters (s := s.setScript l) (fun he => hreset (congrArg some he))
      (fun n w he => hcmd n w (congrArg some he)) hrun

/-- Settles O42: no test and no operand of a command mentions STATUS, and each ending overwrites it. -/
theorem noCommandReadsStatus : Obligations.NoCommandReadsStatus := by
  intro i s c
  cases i with
  | _ => rfl

/-- Settles O47: each register's write and then its read, with the width that the register keeps. -/
theorem registerWriteThenRead : Obligations.RegisterWriteThenRead := by
  intro s v
  refine ⟨runScript_wr_rd (by decide) v s, runScript_wr_rd (by decide) v s, ?_, ?_, ?_, ?_,
    runScript_wr_rd (by decide) v s⟩
  · rw [runScript_wr_rd (by decide), ← setWidth_dim]; rfl
  · rw [runScript_wr_rd (by decide), ← setWidth_dim]; rfl
  · rw [runScript_wr_rd (by decide), BitVec.ofNat_toNat]; rfl
  · rw [runScript_wr_rd (by decide), BitVec.ofNat_toNat]; rfl

/-- Settles O50: the difference to `BLOCK_BASE`, where it is below `2^32`. -/
theorem hostAddressesAreBasePlusOffset : Obligations.HostAddressesAreBasePlusOffset := by
  refine ⟨fun o => ?_, fun a ha => ?_⟩
  · have hin : Config.blockBase ≤ Config.blockBase + o.toNat ∧ Config.blockBase + o.toNat - Config.blockBase < 2 ^ 32 :=
      ⟨Nat.le_add_right _ _, by rw [Nat.add_sub_cancel_left]; exact o.isLt⟩
    rw [offsetOf, if_pos hin, Nat.add_sub_cancel_left, BitVec.ofNat_toNat, BitVec.setWidth_eq]
  · rw [offsetOf, if_neg (by omega)]

end Sys2Proof.Machine
end
